-- ==== Sys2Proof/Word.lean ====
section
/-! DEFINITION. The plain data every layer speaks of: bytes, words, offsets, descriptors (00_scope.md R11, R91) and the
three byte strings of fixed length the engine works on (R12). Only types stand here; what is computed with them is
under Machine/. -/

namespace Sys2Proof

/-- A byte: an 8-bit unsigned value (R11). -/
abbrev Byte := BitVec 8

/-- A word: a 32-bit unsigned value (R11); every register slot is one word (R9). -/
abbrev Word := BitVec 32

/-- A byte offset from the device base: a 32-bit unsigned number (20_memory.md R60). -/
abbrev Offset := BitVec 32

/-- The 34-bit transaction descriptor `T` of 30_encoding.md R91. -/
abbrev Descriptor := BitVec 34

/-- Four bytes in order, byte 0 first: a key-schedule word `[b0, b1, b2, b3]` (41_key_schedule.md), or one column of the
AES state, top to bottom (42_cipher.md R140). -/
structure ByteQuad where
  b0 : Byte
  b1 : Byte
  b2 : Byte
  b3 : Byte
deriving DecidableEq, Repr

/-- `Bytes(16)`: sixteen bytes as four columns of four. Byte `4*c + k` of the block is byte `k` of column `c`, which is
the state element `s[k][c]` (42_cipher.md R140), so a block and the 4x4 state it becomes are the same data. -/
structure Block where
  c0 : ByteQuad
  c1 : ByteQuad
  c2 : ByteQuad
  c3 : ByteQuad
deriving DecidableEq, Repr

/-- `Bytes(32)`: the AES-256 key, `lo` its bytes 0..15 and `hi` its bytes 16..31 (00_scope.md R8, R12). -/
structure Key where
  lo : Block
  hi : Block
deriving DecidableEq, Repr

end Sys2Proof
end

