-- ==== Sys2Proof/Config.lean ====
section
/-! DEFINITION. The open parameters of the hardware (00_scope.md R10). A parameter the spec leaves OPEN with no default
is an opaque constant: no proof can see its value. -/

namespace Sys2Proof

/-- The parameter `IN3_OFFSET` (20_memory.md R63): where the register `in_3` stands. State holds the choice
(notes/assumptions/3.md), so that a statement about every state speaks of both machines. -/
inductive In3Offset where
  /-- the literal offset 0x100, the spec's default -/
  | literal
  /-- the offset 0x0A0 of a uniform stride, the alternative R63 allows -/
  | uniform
deriving DecidableEq, Repr

/-- The default of `IN3_OFFSET` (R10, R63; conflict C1). -/
def Config.in3Offset : In3Offset := .literal

/-- The number that `SENTINEL` is one more than: any of the 2^32 - 1 values, so that `SENTINEL` is any nonzero word and
nothing else is known of it (R10; 92_eei_decisions.md D4). -/
opaque Config.sentinelLessOne : Fin 4294967295

/-- `SENTINEL`: the word read at an offset that has no readable register; "a fixed sentinel value (not zero)" (R10). -/
def Config.sentinel : Word := BitVec.ofNat 32 (Config.sentinelLessOne.val + 1)

/-- `ID_VALUE`: the value of the read-only `id` register (R10; 10_state.md R31; D5). -/
opaque Config.idValue : Word

/-- `DEVICE_BASE`: the platform address of offset 0 (R10; 20_memory.md R60; D20). -/
opaque Config.deviceBase : Nat

end Sys2Proof
end

