-- ==== Sys2Proof/Syntax.lean ====
section
/-! DEFINITION. Names and syntax: the registers (10_state.md R30), the host's four kinds of access (30_encoding.md R90)
and the operations an access decodes to (R93), one constructor of `Instr` for each mnemonic of the opcode table. -/

namespace Sys2Proof

/-- The 25 word registers (10_state.md R30). `inp i` is the spec's `in_i` (`in` is a word of Lean). -/
inductive Reg where
  | id
  | mode
  | format
  | start
  | valid
  | key (i : Fin 8)
  | iv (i : Fin 4)
  | inp (i : Fin 4)
  | out (i : Fin 4)
deriving DecidableEq, Repr

/-- The four char registers (10_state.md R40). -/
inductive CharReg where
  | keyChar
  | ivChar
  | inChar
  | outChar
deriving DecidableEq, Repr

/-- A register of the map of 20_memory.md R62: 25 of the word view, four of the char view. -/
inductive RegName where
  | word (r : Reg)
  | char (c : CharReg)
deriving DecidableEq, Repr

/-- The source's access attribute of a register (R62); `start` is `rw`, its trigger is said by its own rule (R217). -/
inductive Attribute where
  | ro
  | rw
  | wo
deriving DecidableEq, Repr

/-- What the format selector selects (10_state.md R33): the driver an operation runs. -/
inductive BlockMode where
  | ecb
  | cbc
  | ctr
deriving DecidableEq, Repr

/-- One host access, as 00_scope.md R14 writes it. `size` is the access width in bytes: the interface has `size = 4`
only, and the decoder refuses any other (20_memory.md R65), whatever value it carries. -/
inductive Access where
  /-- `MemRead(off, size)` -/
  | memRead (off : Offset) (size : Nat)
  /-- `MemWrite(off, size, v)` -/
  | memWrite (off : Offset) (size : Nat) (v : Word)
  /-- `CharRead(off)` -/
  | charRead (off : Offset)
  /-- `CharWrite(off, P)` -/
  | charWrite (off : Offset) (payload : List Byte)
deriving DecidableEq, Repr

/-- The operations of the decode function (30_encoding.md R93), with the operand a write carries beside its descriptor
(R91). The register index of a family "is not a field of the descriptor" (R92): it is the constructor's argument. -/
inductive Instr where
  | rdId
  | wrId (v : Word)
  | rdMode
  | wrMode (v : Word)
  | rdFormat
  | wrFormat (v : Word)
  | rdStart
  | wrStart (v : Word)
  | rdValid
  | wrValid (v : Word)
  | rdKey (i : Fin 8)
  | wrKey (i : Fin 8) (v : Word)
  | rdIv (i : Fin 4)
  | wrIv (i : Fin 4) (v : Word)
  | rdIn (i : Fin 4)
  | wrIn (i : Fin 4) (v : Word)
  | rdOut (i : Fin 4)
  | wrOut (i : Fin 4) (v : Word)
  | rdCharw (c : CharReg)
  | wrCharw (c : CharReg) (v : Word)
  | rdInvalid (off : Offset)
  | wrInvalid (off : Offset) (v : Word)
  | rdcKey
  | wrcKey (p : List Byte)
  | rdcIv
  | wrcIv (p : List Byte)
  | rdcIn
  | wrcIn (p : List Byte)
  | rdcOut
  | wrcOut (p : List Byte)
  | rdcInvalid (off : Offset)
  | wrcInvalid (off : Offset) (p : List Byte)
deriving DecidableEq, Repr

end Sys2Proof
end

