-- ==== Sys2Proof/Machine/RegisterMap.lean ====
section
/-! DEFINITION. The register map of 20_memory.md R62: the table a register is decoded by, and the offset of each
register by the formulas of R92 and R220 to R229, which the encoder uses. -/

namespace Sys2Proof

/-- One row of the map of R62. -/
structure MapRow where
  off : Offset
  reg : RegName
  attr : Attribute
deriving DecidableEq, Repr

/-- The offset of `in_3` (R63). -/
def in3At : In3Offset → Offset
  | .literal => 0x100
  | .uniform => 0x0A0

/-- The rows of R62 from `id` to `valid`. -/
def controlRows : List MapRow :=
  [⟨0x000, .word .id, .ro⟩, ⟨0x008, .word .mode, .rw⟩, ⟨0x010, .word .format, .rw⟩,
   ⟨0x018, .word .start, .rw⟩, ⟨0x020, .word .valid, .rw⟩]

/-- The rows of R62 for `key_0` to `key_7`. -/
def keyRows : List MapRow :=
  [⟨0x028, .word (.key 0), .wo⟩, ⟨0x030, .word (.key 1), .wo⟩, ⟨0x038, .word (.key 2), .wo⟩,
   ⟨0x040, .word (.key 3), .wo⟩, ⟨0x048, .word (.key 4), .wo⟩, ⟨0x050, .word (.key 5), .wo⟩,
   ⟨0x058, .word (.key 6), .wo⟩, ⟨0x060, .word (.key 7), .wo⟩]

/-- The rows of R62 for `iv_0` to `iv_3`. -/
def ivRows : List MapRow :=
  [⟨0x068, .word (.iv 0), .wo⟩, ⟨0x070, .word (.iv 1), .wo⟩, ⟨0x078, .word (.iv 2), .wo⟩,
   ⟨0x080, .word (.iv 3), .wo⟩]

/-- The rows of R62 for `in_0` to `in_3`; the last offset is the parameter of R63. -/
def inRows (m : In3Offset) : List MapRow :=
  [⟨0x088, .word (.inp 0), .rw⟩, ⟨0x090, .word (.inp 1), .rw⟩, ⟨0x098, .word (.inp 2), .rw⟩,
   ⟨in3At m, .word (.inp 3), .rw⟩]

/-- The rows of R62 for `out_0` to `out_3`. -/
def outRows : List MapRow :=
  [⟨0x108, .word (.out 0), .ro⟩, ⟨0x110, .word (.out 1), .ro⟩, ⟨0x118, .word (.out 2), .ro⟩,
   ⟨0x120, .word (.out 3), .ro⟩]

/-- The rows of R62 for the char registers. -/
def charRows : List MapRow :=
  [⟨0x128, .char .keyChar, .wo⟩, ⟨0x130, .char .ivChar, .wo⟩, ⟨0x138, .char .inChar, .rw⟩,
   ⟨0x140, .char .outChar, .ro⟩]

/-- The register map, 29 rows (R62). -/
def registerMap (m : In3Offset) : List MapRow :=
  controlRows ++ keyRows ++ ivRows ++ inRows m ++ outRows ++ charRows

/-- `RegAt(off)` (R93): the register whose offset equals `off`, or none. Decoding is exact (R64): an offset between two
registers, in the gap or above the map selects nothing. -/
def regAt (m : In3Offset) (off : Offset) : Option RegName :=
  ((registerMap m).find? fun row => row.off == off).map (·.reg)

/-- The offset of a word register: the stride of 8 of R62, and `IN3_OFFSET` for `in_3`. -/
def regOffset (m : In3Offset) : Reg → Offset
  | .id => 0x000
  | .mode => 0x008
  | .format => 0x010
  | .start => 0x018
  | .valid => 0x020
  | .key i => 0x028 + 8 * BitVec.ofNat 32 i.val
  | .iv i => 0x068 + 8 * BitVec.ofNat 32 i.val
  | .inp i => if i = 3 then in3At m else 0x088 + 8 * BitVec.ofNat 32 i.val
  | .out i => 0x108 + 8 * BitVec.ofNat 32 i.val

/-- The offset of a char register (R62, R228). -/
def charOffset : CharReg → Offset
  | .keyChar => 0x128
  | .ivChar => 0x130
  | .inChar => 0x138
  | .outChar => 0x140

/-- The offset of a register of either view. -/
def offsetOf (m : In3Offset) : RegName → Offset
  | .word r => regOffset m r
  | .char c => charOffset c

/-- The access attribute of a register of the map (R62). -/
def attributeOf : RegName → Attribute
  | .word .id => .ro
  | .word .mode => .rw
  | .word .format => .rw
  | .word .start => .rw
  | .word .valid => .rw
  | .word (.key _) => .wo
  | .word (.iv _) => .wo
  | .word (.inp _) => .rw
  | .word (.out _) => .ro
  | .char .keyChar => .wo
  | .char .ivChar => .wo
  | .char .inChar => .rw
  | .char .outChar => .ro

/-- The host address of an offset (R60): `DEVICE_BASE + off`. No wrap: DESIGN CHOICE, notes/assumptions/7.md. -/
def hostAddress (off : Offset) : Nat := Config.deviceBase + off.toNat

end Sys2Proof
end

