-- ==== Sys2Proof/WellFormed.lean ====
section
/-! DEFINITION. Which terms of `Instr` stand for an access: an invalid-offset operation names an offset that does not
select a register of its view (30_encoding.md R93). Register indexes are in range by their type. -/

namespace Sys2Proof

/-- The offset selects no register at all: the condition of `RD_INVALID` and `WR_INVALID` (R93). -/
def noRegister (m : In3Offset) (off : Offset) : Bool :=
  (regAt m off).isNone

/-- The offset is not a char register's: the condition of `RDC_INVALID` and `WRC_INVALID` (R270, R271). -/
def noCharRegister (m : In3Offset) (off : Offset) : Bool :=
  match regAt m off with
  | some (.char _) => false
  | some (.word _) => true
  | none => true

/-- `i` is an operation of R93 on the machine whose `in_3` stands where `m` says. -/
def Instr.wf (m : In3Offset) : Instr → Bool
  | .rdId => true
  | .wrId _ => true
  | .rdMode => true
  | .wrMode _ => true
  | .rdFormat => true
  | .wrFormat _ => true
  | .rdStart => true
  | .wrStart _ => true
  | .rdValid => true
  | .wrValid _ => true
  | .rdKey _ => true
  | .wrKey _ _ => true
  | .rdIv _ => true
  | .wrIv _ _ => true
  | .rdIn _ => true
  | .wrIn _ _ => true
  | .rdOut _ => true
  | .wrOut _ _ => true
  | .rdCharw _ => true
  | .wrCharw _ _ => true
  | .rdInvalid off => noRegister m off
  | .wrInvalid off _ => noRegister m off
  | .rdcKey => true
  | .wrcKey _ => true
  | .rdcIv => true
  | .wrcIv _ => true
  | .rdcIn => true
  | .wrcIn _ => true
  | .rdcOut => true
  | .wrcOut _ => true
  | .rdcInvalid off => noCharRegister m off
  | .wrcInvalid off _ => noCharRegister m off

end Sys2Proof
end

