-- ==== Sys2Proof/Decode.lean ====
section
/-! DEFINITION. The transaction descriptor (30_encoding.md R91), the decode function (R93), total on every descriptor and
refusing by name the access widths the interface does not have (20_memory.md R65), and the encoder. -/

namespace Sys2Proof

/-- `T[33]`: 0 = read, 1 = write (R91). -/
def descriptorDir (t : Descriptor) : Bool := t.getLsbD 33

/-- `T[32]`: 0 = word, 1 = char (R91). -/
def descriptorView (t : Descriptor) : Bool := t.getLsbD 32

/-- `T[31:0]`: the byte offset from the device base (R91). -/
def descriptorOff (t : Descriptor) : Offset := t.extractLsb' 0 32

/-- The descriptor with these three fields (R91). -/
def mkDescriptor (dir view : Bool) (off : Offset) : Descriptor :=
  (BitVec.ofBool dir).setWidth 34 <<< 33 ||| (BitVec.ofBool view).setWidth 34 <<< 32 ||| off.setWidth 34

/-- The descriptor of an access (R91). -/
def accessDescriptor : Access → Descriptor
  | .memRead off _ => mkDescriptor false false off
  | .memWrite off _ _ => mkDescriptor true false off
  | .charRead off => mkDescriptor false true off
  | .charWrite off _ => mkDescriptor true true off

/-- The four-byte access a descriptor and the operands carried beside it stand for (R91): a word write takes `v`, a char
write takes `p`, a read takes neither. -/
def accessOfDescriptor (t : Descriptor) (v : Word) (p : List Byte) : Access :=
  match descriptorDir t, descriptorView t with
  | false, false => .memRead (descriptorOff t) 4
  | true, false => .memWrite (descriptorOff t) 4 v
  | false, true => .charRead (descriptorOff t)
  | true, true => .charWrite (descriptorOff t) p

/-- Decode of a word read (R93, `view == 0`, `dir == 0`). -/
def decodeWordRead (m : In3Offset) (off : Offset) : Instr :=
  match regAt m off with
  | some (.word .id) => .rdId
  | some (.word .mode) => .rdMode
  | some (.word .format) => .rdFormat
  | some (.word .start) => .rdStart
  | some (.word .valid) => .rdValid
  | some (.word (.key i)) => .rdKey i
  | some (.word (.iv i)) => .rdIv i
  | some (.word (.inp i)) => .rdIn i
  | some (.word (.out i)) => .rdOut i
  | some (.char c) => .rdCharw c
  | none => .rdInvalid off

/-- Decode of a word write (R93, `view == 0`, `dir == 1`). -/
def decodeWordWrite (m : In3Offset) (off : Offset) (v : Word) : Instr :=
  match regAt m off with
  | some (.word .id) => .wrId v
  | some (.word .mode) => .wrMode v
  | some (.word .format) => .wrFormat v
  | some (.word .start) => .wrStart v
  | some (.word .valid) => .wrValid v
  | some (.word (.key i)) => .wrKey i v
  | some (.word (.iv i)) => .wrIv i v
  | some (.word (.inp i)) => .wrIn i v
  | some (.word (.out i)) => .wrOut i v
  | some (.char c) => .wrCharw c v
  | none => .wrInvalid off v

/-- Decode of a char read (R93, `view == 1`, `dir == 0`). -/
def decodeCharRead (m : In3Offset) (off : Offset) : Instr :=
  match regAt m off with
  | some (.char .keyChar) => .rdcKey
  | some (.char .ivChar) => .rdcIv
  | some (.char .inChar) => .rdcIn
  | some (.char .outChar) => .rdcOut
  | some (.word _) => .rdcInvalid off
  | none => .rdcInvalid off

/-- Decode of a char write (R93, `view == 1`, `dir == 1`). -/
def decodeCharWrite (m : In3Offset) (off : Offset) (p : List Byte) : Instr :=
  match regAt m off with
  | some (.char .keyChar) => .wrcKey p
  | some (.char .ivChar) => .wrcIv p
  | some (.char .inChar) => .wrcIn p
  | some (.char .outChar) => .wrcOut p
  | some (.word _) => .wrcInvalid off p
  | none => .wrcInvalid off p

/-- `Decode(dir, view, off)` of R93 on the bits of a descriptor, with the operands carried beside it: "it is total (no
descriptor is undecodable)". -/
def decodeDescriptor (m : In3Offset) (t : Descriptor) (v : Word) (p : List Byte) : Instr :=
  match descriptorDir t, descriptorView t with
  | false, false => decodeWordRead m (descriptorOff t)
  | true, false => decodeWordWrite m (descriptorOff t) v
  | false, true => decodeCharRead m (descriptorOff t)
  | true, true => decodeCharWrite m (descriptorOff t) p

/-- Why an access has no operation. -/
inductive DecodeError where
  /-- a word access of another width than four bytes: "a model refuses one" (R65) -/
  | unsupportedWidth (size : Nat)
deriving DecidableEq, Repr

/-- The width, in bytes, of a word access; a char access has none and counts as four (R65). -/
def accessSize : Access → Nat
  | .memRead _ size => size
  | .memWrite _ size _ => size
  | .charRead _ => 4
  | .charWrite _ _ => 4

/-- The value a word write carries (R91); 0 where an access carries none. -/
def accessValue : Access → Word
  | .memRead _ _ => 0
  | .memWrite _ _ v => v
  | .charRead _ => 0
  | .charWrite _ _ => 0

/-- The payload a char write carries (R91); empty where an access carries none. -/
def accessPayload : Access → List Byte
  | .memRead _ _ => []
  | .memWrite _ _ _ => []
  | .charRead _ => []
  | .charWrite _ p => p

/-- The decoder: the width first (R65), then the descriptor's bits (R93). -/
def decode (m : In3Offset) (a : Access) : Except DecodeError Instr :=
  if accessSize a = 4 then .ok (decodeDescriptor m (accessDescriptor a) (accessValue a) (accessPayload a))
  else .error (.unsupportedWidth (accessSize a))

/-- The encoder: the access that stands for an operation, its offset by the formulas of R92. -/
def encode (m : In3Offset) : Instr → Access
  | .rdId => .memRead (regOffset m .id) 4
  | .wrId v => .memWrite (regOffset m .id) 4 v
  | .rdMode => .memRead (regOffset m .mode) 4
  | .wrMode v => .memWrite (regOffset m .mode) 4 v
  | .rdFormat => .memRead (regOffset m .format) 4
  | .wrFormat v => .memWrite (regOffset m .format) 4 v
  | .rdStart => .memRead (regOffset m .start) 4
  | .wrStart v => .memWrite (regOffset m .start) 4 v
  | .rdValid => .memRead (regOffset m .valid) 4
  | .wrValid v => .memWrite (regOffset m .valid) 4 v
  | .rdKey i => .memRead (regOffset m (.key i)) 4
  | .wrKey i v => .memWrite (regOffset m (.key i)) 4 v
  | .rdIv i => .memRead (regOffset m (.iv i)) 4
  | .wrIv i v => .memWrite (regOffset m (.iv i)) 4 v
  | .rdIn i => .memRead (regOffset m (.inp i)) 4
  | .wrIn i v => .memWrite (regOffset m (.inp i)) 4 v
  | .rdOut i => .memRead (regOffset m (.out i)) 4
  | .wrOut i v => .memWrite (regOffset m (.out i)) 4 v
  | .rdCharw c => .memRead (charOffset c) 4
  | .wrCharw c v => .memWrite (charOffset c) 4 v
  | .rdInvalid off => .memRead off 4
  | .wrInvalid off v => .memWrite off 4 v
  | .rdcKey => .charRead (charOffset .keyChar)
  | .wrcKey p => .charWrite (charOffset .keyChar) p
  | .rdcIv => .charRead (charOffset .ivChar)
  | .wrcIv p => .charWrite (charOffset .ivChar) p
  | .rdcIn => .charRead (charOffset .inChar)
  | .wrcIn p => .charWrite (charOffset .inChar) p
  | .rdcOut => .charRead (charOffset .outChar)
  | .wrcOut p => .charWrite (charOffset .outChar) p
  | .rdcInvalid off => .charRead off
  | .wrcInvalid off p => .charWrite off p

/-- The descriptor word of an operation (R91). -/
def encodeDescriptor (m : In3Offset) (i : Instr) : Descriptor := accessDescriptor (encode m i)

/-- The access the opcode table's number `w` stands for: its low 34 bits are the descriptor, and the operand beside it,
which the table gives no bits, is zero (a word write) or empty (a char write): DESIGN CHOICE, notes/assumptions/10.md. -/
def accessOfTableWord (w : Nat) : Access := accessOfDescriptor (BitVec.ofNat 34 w) 0 []

/-- The instruction the decoder reads from a word of the opcode table on the machine with the default map; none when a
bit above the descriptor's 34 is set ("every descriptor is 34 bits", R91). -/
def decodeTableWord (_nbits w : Nat) : Option Instr :=
  if w < 2 ^ 34 then (decode Config.in3Offset (accessOfTableWord w)).toOption else none

end Sys2Proof
end

