-- ==== Sys2Proof/Machine/Bytes.lean ====
section
/-! DEFINITION. The byte order of the hardware, in one place: words to bytes and back (00_scope.md R17; 20_memory.md R66,
R67), and the block, key and state layouts (42_cipher.md R140). -/

namespace Sys2Proof.Machine

/-- `WordLE(b0, b1, b2, b3)` (R17). -/
def wordLE (b0 b1 b2 b3 : Byte) : Word :=
  b0.setWidth 32 ||| b1.setWidth 32 <<< 8 ||| b2.setWidth 32 <<< 16 ||| b3.setWidth 32 <<< 24

/-- `ByteOf(w, j)`: bits `[8j+7:8j]` of `w`, for j in 0..3 (R17); zero beyond (DESIGN CHOICE, notes/assumptions/13.md). -/
def byteOf (w : Word) (j : Nat) : Byte := w.extractLsb' (8 * j) 8

/-- The four bytes of a word in order, byte 0 the least significant (R66). -/
def quadOfWord (w : Word) : ByteQuad := ⟨byteOf w 0, byteOf w 1, byteOf w 2, byteOf w 3⟩

/-- The word that holds four bytes (R66). -/
def wordOfQuad (q : ByteQuad) : Word := wordLE q.b0 q.b1 q.b2 q.b3

/-- The bytes of a quad in order. -/
def quadBytes (q : ByteQuad) : List Byte := [q.b0, q.b1, q.b2, q.b3]

/-- Bytewise exclusive-or of two quads (R11). -/
def quadXor (p q : ByteQuad) : ByteQuad := ⟨p.b0 ^^^ q.b0, p.b1 ^^^ q.b1, p.b2 ^^^ q.b2, p.b3 ^^^ q.b3⟩

/-- `WordsToBytes` of four words: the 16-byte IV or input block of R66. -/
def blockOfWords (ws : Vector Word 4) : Block :=
  ⟨quadOfWord (ws.get 0), quadOfWord (ws.get 1), quadOfWord (ws.get 2), quadOfWord (ws.get 3)⟩

/-- `BytesToWords` of a block: the four output words of R66. -/
def wordsOfBlock (b : Block) : Vector Word 4 :=
  #v[wordOfQuad b.c0, wordOfQuad b.c1, wordOfQuad b.c2, wordOfQuad b.c3]

/-- `WordsToBytes` of eight words: the 32-byte key of R66. -/
def keyOfWords (ws : Vector Word 8) : Key :=
  ⟨⟨quadOfWord (ws.get 0), quadOfWord (ws.get 1), quadOfWord (ws.get 2), quadOfWord (ws.get 3)⟩,
   ⟨quadOfWord (ws.get 4), quadOfWord (ws.get 5), quadOfWord (ws.get 6), quadOfWord (ws.get 7)⟩⟩

/-- The 16 bytes of a block, byte 0 first (R12). -/
def blockBytes (b : Block) : List Byte := quadBytes b.c0 ++ quadBytes b.c1 ++ quadBytes b.c2 ++ quadBytes b.c3

/-- The block whose byte `i` is byte `i` of the list (R12); the list has 16 bytes wherever a step uses this, and reads as zero
beyond its end (DESIGN CHOICE, notes/assumptions/13.md). -/
def blockOfBytes (l : List Byte) : Block :=
  ⟨⟨l.getD 0 0, l.getD 1 0, l.getD 2 0, l.getD 3 0⟩, ⟨l.getD 4 0, l.getD 5 0, l.getD 6 0, l.getD 7 0⟩,
   ⟨l.getD 8 0, l.getD 9 0, l.getD 10 0, l.getD 11 0⟩, ⟨l.getD 12 0, l.getD 13 0, l.getD 14 0, l.getD 15 0⟩⟩

/-- The key as its eight key-schedule words (41_key_schedule.md R132). -/
def keyQuads (k : Key) : List ByteQuad :=
  [k.lo.c0, k.lo.c1, k.lo.c2, k.lo.c3, k.hi.c0, k.hi.c1, k.hi.c2, k.hi.c3]

/-- The key as its 32 bytes, byte 0 first. -/
def keyBytes (k : Key) : List Byte := blockBytes k.lo ++ blockBytes k.hi

/-- Byte `k` of a quad. -/
def quadAt (q : ByteQuad) (k : Fin 4) : Byte :=
  match k with
  | 0 => q.b0
  | 1 => q.b1
  | 2 => q.b2
  | 3 => q.b3

/-- Column `c` of the state. -/
def columnAt (s : Block) (c : Fin 4) : ByteQuad :=
  match c with
  | 0 => s.c0
  | 1 => s.c1
  | 2 => s.c2
  | 3 => s.c3

/-- `s[r][c]`, row `r` and column `c` (R140). A block is its state, so `ToState` and `FromState` need no function:
`s[r][c]` is byte `r + 4*c` of the block. -/
def stateAt (s : Block) (r c : Fin 4) : Byte := quadAt (columnAt s c) r

/-- The state whose element `s[r][c]` is `f r c` (R140). -/
def stateOf (f : Fin 4 → Fin 4 → Byte) : Block :=
  ⟨⟨f 0 0, f 1 0, f 2 0, f 3 0⟩, ⟨f 0 1, f 1 1, f 2 1, f 3 1⟩,
   ⟨f 0 2, f 1 2, f 2 2, f 3 2⟩, ⟨f 0 3, f 1 3, f 2 3, f 3 3⟩⟩

/-- Bytewise exclusive-or of two blocks (R11; 43_modes.md). -/
def blockXor (a b : Block) : Block := ⟨quadXor a.c0 b.c0, quadXor a.c1 b.c1, quadXor a.c2 b.c2, quadXor a.c3 b.c3⟩

/-- `BytesToWords(B)` of R17: every four bytes form one little-endian word. R17 defines it for `len(B) = 4n` only; that one to
three trailing bytes are dropped is the model's (DESIGN CHOICE, notes/assumptions/13.md), and no step reaches it. -/
def bytesToWords : List Byte → List Word
  | b0 :: b1 :: b2 :: b3 :: rest => wordLE b0 b1 b2 b3 :: bytesToWords rest
  | [] => []
  | [_] => []
  | [_, _] => []
  | [_, _, _] => []

/-- `WordsToBytes(w_0 .. w_{n-1})` of R17. -/
def wordsToBytes : List Word → List Byte
  | [] => []
  | w :: rest => quadBytes (quadOfWord w) ++ wordsToBytes rest

end Sys2Proof.Machine
end

