-- ==== Sys2Proof/Machine/Galois.lean ====
section
/-! DEFINITION. GF(2^8) arithmetic, the S-boxes and the round constants (40_gf_sbox.md R110 to R116). -/

namespace Sys2Proof.Machine

/-- `xtime(a)`: multiplication by 2, the shift truncated to 8 bits and reduced by 0x1B (R110). -/
def xtime (a : Byte) : Byte := (a <<< 1) ^^^ (if a &&& 0x80 ≠ 0 then 0x1B else 0x00)

/-- The loop of `GMul` from bit `k` of `b`, `n` bits to go: `a` doubled `k` times, `p` the sum so far (R112). -/
def gmulFrom : Nat → Nat → Byte → Byte → Byte → Byte
  | 0, _, _, _, p => p
  | n + 1, k, a, b, p => gmulFrom n (k + 1) (xtime a) b (if b.getLsbD k then p ^^^ a else p)

/-- `GMul(a, b)`: the field product modulo 0x11B, for all operand pairs (R112; the field of R111). -/
def gmul (a b : Byte) : Byte := gmulFrom 8 0 a b 0x00

/-- Every byte, 0x00 first. -/
def allBytes : List Byte := (List.range 256).map (BitVec.ofNat 8)

/-- `GInv(a)`: the byte whose product with `a` is 0x01, and 0x00 for 0x00 (R113). -/
def ginv (a : Byte) : Byte := (allBytes.find? fun b => gmul a b == 0x01).getD 0x00

/-- The construction of the S-box as the affine transform of the field inverse (R114), by which the table is checked. -/
def sboxAffine (a : Byte) : Byte :=
  let b := ginv a
  b ^^^ b.rotateLeft 1 ^^^ b.rotateLeft 2 ^^^ b.rotateLeft 3 ^^^ b.rotateLeft 4 ^^^ 0x63

/-- The table of R114, one row a line: the row of high nibble `h` holds its sixteen bytes, column 0 first. -/
def sboxRows : List (BitVec 128) :=
  [0x637c777bf26b6fc53001672bfed7ab76#128,
   0xca82c97dfa5947f0add4a2af9ca472c0#128,
   0xb7fd9326363ff7cc34a5e5f171d83115#128,
   0x04c723c31896059a071280e2eb27b275#128,
   0x09832c1a1b6e5aa0523bd6b329e32f84#128,
   0x53d100ed20fcb15b6acbbe394a4c58cf#128,
   0xd0efaafb434d338545f9027f503c9fa8#128,
   0x51a3408f929d38f5bcb6da2110fff3d2#128] ++
  [0xcd0c13ec5f974417c4a77e3d645d1973#128,
   0x60814fdc222a908846eeb814de5e0bdb#128,
   0xe0323a0a4906245cc2d3ac629195e479#128,
   0xe7c8376d8dd54ea96c56f4ea657aae08#128,
   0xba78252e1ca6b4c6e8dd741f4bbd8b8a#128,
   0x703eb5664803f60e613557b986c11d9e#128,
   0xe1f8981169d98e949b1e87e9ce5528df#128,
   0x8ca1890dbfe6426841992d0fb054bb16#128]

/-- The table of R115, in the same layout. -/
def invSboxRows : List (BitVec 128) :=
  [0x52096ad53036a538bf40a39e81f3d7fb#128,
   0x7ce339829b2fff87348e4344c4dee9cb#128,
   0x547b9432a6c2233dee4c950b42fac34e#128,
   0x082ea16628d924b2765ba2496d8bd125#128,
   0x72f8f66486689816d4a45ccc5d65b692#128,
   0x6c704850fdedb9da5e154657a78d9d84#128,
   0x90d8ab008cbcd30af7e45805b8b34506#128,
   0xd02c1e8fca3f0f02c1afbd0301138a6b#128] ++
  [0x3a9111414f67dcea97f2cfcef0b4e673#128,
   0x96ac7422e7ad3585e2f937e81c75df6e#128,
   0x47f11a711d29c5896fb7620eaa18be1b#128,
   0xfc563e4bc6d279209adbc0fe78cd5af4#128,
   0x1fdda8338807c731b11210592780ec5f#128,
   0x60517fa919b54a0d2de57a9f93c99cef#128,
   0xa0e03b4dae2af5b0c8ebbb3c83539961#128,
   0x172b047eba77d626e169146355210c7d#128]

/-- The entry of a table in that layout for the byte `a`: row the high nibble, column the low nibble. -/
def tableEntry (rows : List (BitVec 128)) (a : Byte) : Byte :=
  (rows.getD (a.toNat / 16) 0).extractLsb' (8 * (15 - a.toNat % 16)) 8

/-- `SBox(a)` by the normative table (R114). -/
def sbox (a : Byte) : Byte := tableEntry sboxRows a

/-- `InvSBox(a)` by the table (R115). -/
def invSbox (a : Byte) : Byte := tableEntry invSboxRows a

/-- `Rcon(k)` for k in 1..7 (R116). The spec defines no other: that the value at 0 is 0x00 and that the doubling goes on above 7
(0x80, 0x1B, ...) is the model's (DESIGN CHOICE, notes/assumptions/13.md), and no word of the schedule uses either. -/
def rcon : Nat → Byte
  | 0 => 0x00
  | 1 => 0x01
  | k + 2 => xtime (rcon (k + 1))

end Sys2Proof.Machine
end

