-- ==== Sys2Proof/Machine/KeySchedule.lean ====
section
/-! DEFINITION. The AES-256 key schedule (41_key_schedule.md R130 to R133). -/

namespace Sys2Proof.Machine

/-- `RotWord(t)`: rotation by one byte toward byte 0 (R130). -/
def rotWord (t : ByteQuad) : ByteQuad := ⟨t.b1, t.b2, t.b3, t.b0⟩

/-- `SubWord(t)`: the S-box on each byte (R131). -/
def subWord (t : ByteQuad) : ByteQuad := ⟨sbox t.b0, sbox t.b1, sbox t.b2, sbox t.b3⟩

/-- What the schedule makes of the previous word `t` for the word at index `i`: rotate, substitute and add the round
constant to byte 0 when `i` is a multiple of 8, substitute when `i mod 8` is 4, else nothing (R132). -/
def scheduleStep (i : Nat) (t : ByteQuad) : ByteQuad :=
  if i % 8 = 0 then
    let u := subWord (rotWord t)
    ⟨u.b0 ^^^ rcon (i / 8), u.b1, u.b2, u.b3⟩
  else if i % 8 = 4 then subWord t
  else t

/-- The first `8 + n` words of the schedule: the key's own eight, then each from the word before it and the word 8 back
(R132). The new word has index `i = n + 8`; the spec ends at index 59, and that the recurrence goes on for `n` above 52 is the
model's (DESIGN CHOICE, notes/assumptions/13.md). -/
def scheduleWords (k : Key) : Nat → List ByteQuad
  | 0 => keyQuads k
  | n + 1 =>
    let ws := scheduleWords k n
    ws ++ [quadXor (ws.getD n ⟨0, 0, 0, 0⟩) (scheduleStep (n + 8) (ws.getD (n + 7) ⟨0, 0, 0, 0⟩))]

/-- `KeyExpansion(K)`: the 60 words `w[0]..w[59]`, 240 bytes (R132, R8). -/
def keyExpansion (k : Key) : List ByteQuad := scheduleWords k 52

/-- `RoundKey(W, r)`: the words `w[4r] .. w[4r+3]` (R133), for r in 0..14; a word beyond the end of the list reads as zero
(DESIGN CHOICE, notes/assumptions/13.md). -/
def roundKey (w : List ByteQuad) (r : Nat) : Block :=
  ⟨w.getD (4 * r) ⟨0, 0, 0, 0⟩, w.getD (4 * r + 1) ⟨0, 0, 0, 0⟩,
   w.getD (4 * r + 2) ⟨0, 0, 0, 0⟩, w.getD (4 * r + 3) ⟨0, 0, 0, 0⟩⟩

end Sys2Proof.Machine
end

