-- ==== Sys2Proof/Machine/Cipher.lean ====
section
/-! DEFINITION. The round transforms and the two block functions (42_cipher.md R140 to R149). -/

namespace Sys2Proof.Machine

/-- `AddRoundKey(s, W, r)`: byte `4c + k` of round key `r` is added to `s[k][c]` (R141; R133). -/
def addRoundKey (s : Block) (w : List ByteQuad) (r : Nat) : Block :=
  let rk := roundKey w r
  stateOf fun k c => stateAt s k c ^^^ stateAt rk k c

/-- `SubBytes(s)` (R142). -/
def subBytes (s : Block) : Block := stateOf fun r c => sbox (stateAt s r c)

/-- `InvSubBytes(s)` (R143). -/
def invSubBytes (s : Block) : Block := stateOf fun r c => invSbox (stateAt s r c)

/-- `ShiftRows(s)`: `s'[r][c] = s[r][(c + r) mod 4]` (R144); addition in `Fin 4` is modulo 4. -/
def shiftRows (s : Block) : Block := stateOf fun r c => stateAt s r (c + r)

/-- `InvShiftRows(s)`: `s'[r][c] = s[r][(c - r) mod 4]` (R145). -/
def invShiftRows (s : Block) : Block := stateOf fun r c => stateAt s r (c - r)

/-- One column of `MixColumns` (R146). -/
def mixColumn (q : ByteQuad) : ByteQuad :=
  ⟨gmul q.b0 0x02 ^^^ gmul q.b1 0x03 ^^^ q.b2 ^^^ q.b3,
   q.b0 ^^^ gmul q.b1 0x02 ^^^ gmul q.b2 0x03 ^^^ q.b3,
   q.b0 ^^^ q.b1 ^^^ gmul q.b2 0x02 ^^^ gmul q.b3 0x03,
   gmul q.b0 0x03 ^^^ q.b1 ^^^ q.b2 ^^^ gmul q.b3 0x02⟩

/-- One column of `InvMixColumns` (R147). -/
def invMixColumn (q : ByteQuad) : ByteQuad :=
  ⟨gmul q.b0 0x0E ^^^ gmul q.b1 0x0B ^^^ gmul q.b2 0x0D ^^^ gmul q.b3 0x09,
   gmul q.b0 0x09 ^^^ gmul q.b1 0x0E ^^^ gmul q.b2 0x0B ^^^ gmul q.b3 0x0D,
   gmul q.b0 0x0D ^^^ gmul q.b1 0x09 ^^^ gmul q.b2 0x0E ^^^ gmul q.b3 0x0B,
   gmul q.b0 0x0B ^^^ gmul q.b1 0x0D ^^^ gmul q.b2 0x09 ^^^ gmul q.b3 0x0E⟩

/-- `MixColumns(s)` (R146). -/
def mixColumns (s : Block) : Block := ⟨mixColumn s.c0, mixColumn s.c1, mixColumn s.c2, mixColumn s.c3⟩

/-- `InvMixColumns(s)` (R147). -/
def invMixColumns (s : Block) : Block := ⟨invMixColumn s.c0, invMixColumn s.c1, invMixColumn s.c2, invMixColumn s.c3⟩

/-- The rounds 1..n of `Cipher`: SubBytes, ShiftRows, MixColumns, AddRoundKey(round) (R148). -/
def cipherRounds (w : List ByteQuad) : Nat → Block → Block
  | 0, s => s
  | n + 1, s => addRoundKey (mixColumns (shiftRows (subBytes (cipherRounds w n s)))) w (n + 1)

/-- `Cipher(B, W)`: AddRoundKey(0), the rounds 1..13, and round 14 with MixColumns omitted (R148). -/
def cipher (b : Block) (w : List ByteQuad) : Block :=
  addRoundKey (shiftRows (subBytes (cipherRounds w 13 (addRoundKey b w 0)))) w 14

/-- The rounds n-1 downto 0 of `InvCipher`: InvShiftRows, InvSubBytes, AddRoundKey(round), and InvMixColumns unless the
round is 0 (R149). -/
def invCipherRounds (w : List ByteQuad) : Nat → Block → Block
  | 0, s => s
  | n + 1, s =>
    let u := addRoundKey (invSubBytes (invShiftRows s)) w n
    invCipherRounds w n (if n ≠ 0 then invMixColumns u else u)

/-- `InvCipher(B, W)`: AddRoundKey(14), then the rounds 13 downto 0 (R149). -/
def invCipher (b : Block) (w : List ByteQuad) : Block := invCipherRounds w 14 (addRoundKey b w 14)

end Sys2Proof.Machine
end

