-- ==== Sys2Proof/Machine/Flags.lean ====
section
/-! DEFINITION. The device has no flags and no condition codes (10_state.md R43); the two values an operation's course
hangs on are the selectors in `mode` and `format`, whose meaning at operation time stands here. -/

namespace Sys2Proof.Machine

/-- The mode selector: 0 encrypts, any nonzero value decrypts (10_state.md R32; 43_modes.md R178). -/
def decrypts (m : Word) : Bool := m != 0

/-- The format selector: 0 selects ECB, 1 CBC, every other value CTR (10_state.md R33). -/
def formatSelects (f : Word) : BlockMode :=
  if f = 0 then .ecb else if f = 1 then .cbc else .ctr

/-- A write to `start` triggers an operation exactly when its value is nonzero (10_state.md R34). -/
def triggers (v : Word) : Bool := v != 0

end Sys2Proof.Machine
end

