-- ==== Sys2Proof/Machine/Modes.lean ====
section
/-! DEFINITION. The mode drivers (43_modes.md): the single-block forms the device uses (R170 to R174), the multi-block
forms of the engine, which the device never calls (R175 to R177), and the dispatch (R178). -/

namespace Sys2Proof.Machine

/-- `EcbBlock(dec, B, W)` (R170). -/
def ecbBlock (dec : Bool) (b : Block) (w : List ByteQuad) : Block := if dec then invCipher b w else cipher b w

/-- `CbcEncryptBlock(B, V, W)`: the ciphertext and the next IV (R171). -/
def cbcEncryptBlock (b v : Block) (w : List ByteQuad) : Block × Block :=
  let c := cipher (blockXor b v) w
  (c, c)

/-- `CbcDecryptBlock(C, V, W)`: the plaintext and the next IV (R172). -/
def cbcDecryptBlock (c v : Block) (w : List ByteQuad) : Block × Block := (blockXor (invCipher c w) v, c)

/-- Plus one on bytes given least significant first: the carry stops at the first byte that does not wrap (R173). -/
def incrementBytes : List Byte → List Byte
  | [] => []
  | b :: rest => if b + 1 = 0 then 0 :: incrementBytes rest else (b + 1) :: rest

/-- `CtrIncrement(Q)`: plus one, byte 15 the least significant (R173). -/
def ctrIncrement (q : Block) : Block := blockOfBytes (incrementBytes (blockBytes q).reverse).reverse

/-- `CtrBlock(B, Q, W)`: the output and the next counter; always the forward cipher (R174). -/
def ctrBlock (b q : Block) (w : List ByteQuad) : Block × Block := (blockXor b (cipher q w), ctrIncrement q)

/-- The 16-byte blocks of a buffer, in order; none when its length is not a multiple of 16, which the ECB and CBC
drivers refuse (R175, R176; notes/assumptions/16.md). -/
def bufferBlocks : List Byte → Option (List Block)
  | [] => some []
  | a0 :: a1 :: a2 :: a3 :: b0 :: b1 :: b2 :: b3 :: c0 :: c1 :: c2 :: c3 :: d0 :: d1 :: d2 :: d3 :: rest =>
    (bufferBlocks rest).map
      (⟨⟨a0, a1, a2, a3⟩, ⟨b0, b1, b2, b3⟩, ⟨c0, c1, c2, c3⟩, ⟨d0, d1, d2, d3⟩⟩ :: ·)
  | _ => none

/-- The bytes of a list of blocks, in order. -/
def blocksBytes (bs : List Block) : List Byte := bs.flatMap blockBytes

/-- A single-block driver threaded through a list of blocks: the outputs and the final IV (R176). -/
def threadBlocks (f : Block → Block → Block × Block) : List Block → Block → List Block × Block
  | [], v => ([], v)
  | b :: rest, v =>
    let o := f b v
    let r := threadBlocks f rest o.2
    (o.1 :: r.1, r.2)

/-- `EcbBuffer(dec, D, W)`; none where the length is refused (R175). -/
def ecbBuffer (dec : Bool) (d : List Byte) (w : List ByteQuad) : Option (List Byte) :=
  (bufferBlocks d).map fun bs => blocksBytes (bs.map fun b => ecbBlock dec b w)

/-- `CbcEncryptBuffer(D, V, W)`: the output and the final IV; none where the length is refused (R176). -/
def cbcEncryptBuffer (d : List Byte) (v : Block) (w : List ByteQuad) : Option (List Byte × Block) :=
  (bufferBlocks d).map fun bs =>
    let r := threadBlocks (fun b u => cbcEncryptBlock b u w) bs v
    (blocksBytes r.1, r.2)

/-- `CbcDecryptBuffer(D, V, W)`: the output and the final IV; none where the length is refused (R176). -/
def cbcDecryptBuffer (d : List Byte) (v : Block) (w : List ByteQuad) : Option (List Byte × Block) :=
  (bufferBlocks d).map fun bs =>
    let r := threadBlocks (fun c u => cbcDecryptBlock c u w) bs v
    (blocksBytes r.1, r.2)

/-- The loop of `CtrBuffer` from byte index `i`, with the keystream block `s` now in use: a new one is made, and the
counter incremented, at every index that is a multiple of 16 (R177). -/
def ctrBytes (w : List ByteQuad) : Nat → List Byte → Block → Block → List Byte × Block
  | _, [], q, _ => ([], q)
  | i, d :: rest, q, s =>
    let s' := if i % 16 = 0 then cipher q w else s
    let q' := if i % 16 = 0 then ctrIncrement q else q
    let r := ctrBytes w (i + 1) rest q' s'
    ((d ^^^ (blockBytes s').getD (i % 16) 0) :: r.1, r.2)

/-- `CtrBuffer(D, Q, W)`, any length: the output and the final counter (R177). The keystream block before byte 0 is made
at byte 0, so the one given here is never used (DESIGN CHOICE, notes/assumptions/13.md). -/
def ctrBuffer (d : List Byte) (q : Block) (w : List ByteQuad) : List Byte × Block := ctrBytes w 0 d q q

/-- `EngineRun(m, f, K, V, B)` (R178). -/
def engineRun (m f : Word) (k : Key) (v b : Block) : Block :=
  let w := keyExpansion k
  let dec := decrypts m
  match formatSelects f with
  | .ecb => ecbBlock dec b w
  | .cbc => if dec then (cbcDecryptBlock b v w).1 else (cbcEncryptBlock b v w).1
  | .ctr => (ctrBlock b v w).1

end Sys2Proof.Machine
end

