-- ==== Sys2Proof/Machine/Operands.lean ====
section
/-! DEFINITION. The two encodings of the char path (46_char_access.md R260, R261): a payload packed into words, and four
words rendered as text. A word write's operand needs no form of its own: it is all 32 bits, unmodified (30_encoding.md R92). -/

namespace Sys2Proof.Machine

/-- The payload truncated or zero-filled to exactly `4n` bytes (R260). -/
def fitPayload (p : List Byte) (n : Nat) : List Byte :=
  p.take (4 * n) ++ List.replicate (4 * n - p.length) 0x00

/-- `PackPayload(P, n)`: n words (R260). -/
def packPayload (p : List Byte) (n : Nat) : List Word := bytesToWords (fitPayload p n)

/-- A payload shorter than the `4n` bytes required, which raises `MalformedCharPayload` (R260; 60_exceptions.md R302). -/
def isShortPayload (p : List Byte) (n : Nat) : Bool := decide (p.length < 4 * n)

/-- The eight key words of a payload (R262). -/
def packKeyWords (p : List Byte) : Vector Word 8 :=
  let ws := packPayload p 8
  #v[ws.getD 0 0, ws.getD 1 0, ws.getD 2 0, ws.getD 3 0, ws.getD 4 0, ws.getD 5 0, ws.getD 6 0, ws.getD 7 0]

/-- The four words of a payload for the IV or the input (R263, R264). -/
def packBlockWords (p : List Byte) : Vector Word 4 :=
  let ws := packPayload p 4
  #v[ws.getD 0 0, ws.getD 1 0, ws.getD 2 0, ws.getD 3 0]

/-- The ASCII code of a decimal digit, 0 to 9; it is used for no other number (notes/assumptions/13.md). -/
def digitByte (d : Nat) : Byte := BitVec.ofNat 8 (0x30 + d)

/-- `Dec(b)`: the unsigned decimal digits of `b`, no leading zeros, "0" for 0 (R261). -/
def decimalBytes (b : Byte) : List Byte :=
  let n := b.toNat
  if n < 10 then [digitByte n]
  else if n < 100 then [digitByte (n / 10), digitByte (n % 10)]
  else [digitByte (n / 100), digitByte (n / 10 % 10), digitByte (n % 10)]

/-- The decimal renderings of the bytes, one space between two of them (R261, which has sixteen; for another number of bytes it is
the model's, DESIGN CHOICE, notes/assumptions/13.md). -/
def spaceSeparated : List Byte → List Byte
  | [] => []
  | [b] => decimalBytes b
  | b :: c :: rest => decimalBytes b ++ 0x20 :: spaceSeparated (c :: rest)

/-- `Render(w_0, w_1, w_2, w_3)`: sixteen numbers, single spaces between them, one line feed at the end (R261). -/
def render (ws : Vector Word 4) : List Byte := spaceSeparated (blockBytes (blockOfWords ws)) ++ [0x0A]

end Sys2Proof.Machine
end

