-- ==== Sys2Proof/Machine/State.lean ====
section
/-! DEFINITION. The state of the machine as plain data (10_state.md): the device's registers, side records and control
machine; the parameter `IN3_OFFSET`; and the host's side of the interface, the transactions not yet applied and what the
last one gave back. -/

namespace Sys2Proof.Machine

/-- The two-state control machine (10_state.md R41). -/
inductive Fsm where
  | idle
  | computing
deriving DecidableEq, Repr

/-- The register file, the device's whole state (10_state.md R30): 25 word registers, three side records, `fsm`. The
engine's working state exists only within one operation (R42) and is `EngineContext` of Machine/Ops.lean. -/
structure Device where
  /-- `id` (R31) -/
  id : Word
  /-- `mode` (R32) -/
  mode : Word
  /-- `format` (R33) -/
  format : Word
  /-- `start` (R34) -/
  start : Word
  /-- `valid` (R35) -/
  valid : Word
  /-- `key_0` to `key_7` (R36) -/
  key : Vector Word 8
  /-- `iv_0` to `iv_3` (R37) -/
  iv : Vector Word 4
  /-- `in_0` to `in_3` (R38) -/
  inp : Vector Word 4
  /-- `out_0` to `out_3` (R39) -/
  out : Vector Word 4
  /-- the side record `rec_key` (R40) -/
  recKey : List Byte
  /-- the side record `rec_iv` (R40) -/
  recIv : List Byte
  /-- the side record `rec_in` (R40) -/
  recIn : List Byte
  /-- `fsm` (R41) -/
  fsm : Fsm
deriving DecidableEq, Repr

/-- What a transaction gives back (30_encoding.md R91): a word read 32 bits, a char read a byte string, a write nothing. -/
inductive Result where
  | nothing
  | word (w : Word)
  | text (t : List Byte)
deriving DecidableEq, Repr

/-- The two named, non-fatal errors of 60_exceptions.md R300, with the value each carries (R301, R302). -/
inductive Event where
  | invalidRegisterOffset (off : Offset)
  | malformedCharPayload (len : Nat)
deriving DecidableEq, Repr

/-- The host's side of the interface. It is the model's own (notes/assumptions/1.md, 2.md): the device stores none of it. -/
structure HostPort where
  /-- the transactions of every caller that are still to be applied, in the one total order of 20_memory.md R71 -/
  pending : List Access
  /-- the index of the next transaction in the host's sequence (10_state.md R44) -/
  position : Nat
  /-- what the last transaction gave back -/
  result : Result
  /-- the error the last transaction raised: "For a model's observation they are named events with no effect on state" (R300) -/
  event : Option Event
deriving DecidableEq, Repr

/-- The machine: the device, the parameter that no transaction changes (notes/assumptions/3.md), the host's side. -/
structure State where
  /-- the device's registers -/
  dev : Device
  /-- the parameter `IN3_OFFSET` (20_memory.md R63) -/
  in3 : In3Offset
  /-- the host's side of the interface -/
  host : HostPort
deriving DecidableEq, Repr

/-- Faults. The hardware has none: no error is fatal, nothing traps (60_exceptions.md R300, R303, R304), so there is no
constructor and no run can end in a fault. Safe. -/
inductive Fault where
deriving DecidableEq, Repr

/-- Why a step gives no next state. -/
inductive Refusal where
  /-- Raised by an arm of exec whose instruction has no meaning yet; no arm is left that raises it. Safe. -/
  | notModelled (mnemonic : String)
  /-- Raised by step on a word access of another width than four bytes: "No transaction of another width (8, 16 or 64 bits)
  exists in the interface; a model refuses one" (20_memory.md R65). Safe. -/
  | unsupportedWidth (size : Nat)
  /-- Raised by step while `fsm` is `Computing`: "No transaction is accepted while `fsm = Computing`" (44_device_operation.md
  R195). No run from an idle state comes there. Safe. -/
  | computing
deriving DecidableEq, Repr

/-- `RESET_STORAGE` (70_reset_and_hazards.md R331): zero, or a free value for each storage register
(notes/assumptions/4.md). -/
inductive ResetStorage where
  | zero
  | draw (values : Reg → Word)

/-- What a storage register holds at reset (R331). -/
def resetWord : ResetStorage → Reg → Word
  | .zero, _ => 0
  | .draw values, r => values r

/-- The device at reset (R331): `id` is `ID_VALUE`, the 24 storage registers as `RESET_STORAGE` says, the side records
empty, `fsm` idle. -/
def Device.resetWith (c : ResetStorage) : Device where
  id := Config.idValue
  mode := resetWord c .mode
  format := resetWord c .format
  start := resetWord c .start
  valid := resetWord c .valid
  key := #v[resetWord c (.key 0), resetWord c (.key 1), resetWord c (.key 2), resetWord c (.key 3),
    resetWord c (.key 4), resetWord c (.key 5), resetWord c (.key 6), resetWord c (.key 7)]
  iv := #v[resetWord c (.iv 0), resetWord c (.iv 1), resetWord c (.iv 2), resetWord c (.iv 3)]
  inp := #v[resetWord c (.inp 0), resetWord c (.inp 1), resetWord c (.inp 2), resetWord c (.inp 3)]
  out := #v[resetWord c (.out 0), resetWord c (.out 1), resetWord c (.out 2), resetWord c (.out 3)]
  recKey := []
  recIv := []
  recIn := []
  fsm := .idle

/-- The machine at reset, for either choice of `IN3_OFFSET` and of `RESET_STORAGE`: no transaction is pending, none has
been applied. -/
def State.resetWith (m : In3Offset) (c : ResetStorage) : State where
  dev := Device.resetWith c
  in3 := m
  host := ⟨[], 0, .nothing, none⟩

/-- The machine right after reset, with the spec's defaults `IN3_OFFSET = 0x100` and `RESET_STORAGE = zero` (R10, R331). -/
def State.reset : State := State.resetWith Config.in3Offset .zero

end Sys2Proof.Machine
end

