-- ==== Sys2Proof/Machine/Ops.lean ====
section
/-! DEFINITION. The named operations every meaning is made of: the register primitives (00_scope.md R13), the triggered
operation (44_device_operation.md R190), what a transaction gives back and raises (30_encoding.md R91, 60_exceptions.md
R300), and the transaction taken from the host's sequence (20_memory.md R71). -/

namespace Sys2Proof.Machine

/-- `x[r]` (R13): the device's own read, with no access restriction. -/
def readReg (d : Device) : Reg → Word
  | .id => d.id
  | .mode => d.mode
  | .format => d.format
  | .start => d.start
  | .valid => d.valid
  | .key i => d.key.get i
  | .iv i => d.iv.get i
  | .inp i => d.inp.get i
  | .out i => d.out.get i

/-- `x[r] <- v` (R13): the device's own write, with no access restriction. -/
def writeReg (d : Device) (r : Reg) (v : Word) : Device :=
  match r with
  | .id => { d with id := v }
  | .mode => { d with mode := v }
  | .format => { d with format := v }
  | .start => { d with start := v }
  | .valid => { d with valid := v }
  | .key i => { d with key := d.key.set i.val v i.isLt }
  | .iv i => { d with iv := d.iv.set i.val v i.isLt }
  | .inp i => { d with inp := d.inp.set i.val v i.isLt }
  | .out i => { d with out := d.out.set i.val v i.isLt }

/-- The per-operation context (10_state.md R42): the selectors and the three buffers as they stand at trigger time. It is
made in `doOperation` and discarded at its end (44_device_operation.md R196); the schedule and the state matrix are made
within `engineRun`. No field of State holds it: DEDUCED, notes/assumptions/14.md. -/
structure EngineContext where
  mode : Word
  format : Word
  key : Key
  iv : Block
  block : Block
deriving DecidableEq, Repr

/-- Latching: every word of every buffer is read at the moment of the trigger (R191; byte order, 20_memory.md R66). -/
def latch (d : Device) : EngineContext :=
  ⟨d.mode, d.format, keyOfWords d.key, blockOfWords d.iv, blockOfWords d.inp⟩

/-- The engine on a latched context (43_modes.md R178). -/
def runContext (c : EngineContext) : Block := engineRun c.mode c.format c.key c.iv c.block

/-- The output store: all four of `out_0..out_3` (R192). -/
def storeOutput (d : Device) (o : Block) : Device := { d with out := wordsOfBlock o }

/-- `DoOperation()` (R190): `Idle -> Computing`, latch, run, store, `Computing -> Idle` (R195). -/
def doOperation (d : Device) : Device :=
  let busy : Device := { d with fsm := .computing }
  let done := storeOutput busy (runContext (latch busy))
  { done with fsm := .idle }

/-- The pseudocode of `WR_START` on the device (45_word_access.md R217): a nonzero value is stored and triggers exactly one
operation, zero changes nothing. -/
def writeStart (d : Device) (v : Word) : Device :=
  if triggers v then doOperation (writeReg d .start v) else d

/-- The stores of a `key_char` write: eight words and the side record (46_char_access.md R262). -/
def loadKey (d : Device) (p : List Byte) : Device := { d with key := packKeyWords p, recKey := p }

/-- The stores of an `iv_char` write: four words and the side record (R263). -/
def loadIv (d : Device) (p : List Byte) : Device := { d with iv := packBlockWords p, recIv := p }

/-- The stores of an `in_char` write: four words and the side record (R264). -/
def loadIn (d : Device) (p : List Byte) : Device := { d with inp := packBlockWords p, recIn := p }

/-- The state with another device, everything else kept. -/
def withDevice (s : State) (d : Device) : State := { s with dev := d }

/-- The transaction ends and gives `r` back, no error raised (30_encoding.md R91). -/
def answer (r : Result) (s : State) : State := { s with host := { s.host with result := r, event := none } }

/-- `raise E(info)` (00_scope.md R15): the error is observed; nothing else of the state changes. The device has no
trap entry and no return from one (60_exceptions.md R304, R307), so this is all that an error does. -/
def raiseEvent (e : Event) (s : State) : State := { s with host := { s.host with event := some e } }

/-- `MalformedCharPayload(len(P))` for a payload shorter than `4n` bytes (R260, R302). -/
def raiseIfShort (p : List Byte) (n : Nat) (s : State) : State :=
  if isShortPayload p n then raiseEvent (.malformedCharPayload p.length) s else s

/-- `if RegAt(off) == NONE: raise InvalidRegisterOffset(off)` (46_char_access.md R270, R271). -/
def raiseIfNoRegister (off : Offset) (s : State) : State :=
  if noRegister s.in3 off then raiseEvent (.invalidRegisterOffset off) s else s

/-- The state as a transaction finds it: taken from the host's sequence, whose position has advanced by exactly one
(10_state.md R44). -/
def takeTransaction (rest : List Access) (s : State) : State :=
  { s with host := { s.host with pending := rest, position := s.host.position + 1 } }

/-- The state with one more transaction, to be applied before every other pending one. -/
def issueNext (a : Access) (s : State) : State :=
  { s with host := { s.host with pending := a :: s.host.pending } }

/-- A caller issues transactions: they take effect after every one already pending (20_memory.md R71, R72). -/
def issue (as : List Access) (s : State) : State :=
  { s with host := { s.host with pending := s.host.pending ++ as } }

end Sys2Proof.Machine
end

