-- ==== Sys2Proof/Machine/CharAccess.lean ====
section
/-! DEFINITION. The char transactions, one meaning for each operation (46_char_access.md R262 to R271). -/

namespace Sys2Proof.Machine

/-- `WRC_KEY` (R262): the key words and `rec_key`; `MalformedCharPayload` under 32 bytes. -/
def execWrcKey (p : List Byte) (s : State) : Host.Outcome State Fault Refusal :=
  .next (raiseIfShort p 8 (answer .nothing (withDevice s (loadKey s.dev p))))

/-- `WRC_IV` (R263): the IV words and `rec_iv`; `MalformedCharPayload` under 16 bytes. -/
def execWrcIv (p : List Byte) (s : State) : Host.Outcome State Fault Refusal :=
  .next (raiseIfShort p 4 (answer .nothing (withDevice s (loadIv s.dev p))))

/-- `WRC_IN` (R264): the input words and `rec_in`; `MalformedCharPayload` under 16 bytes. -/
def execWrcIn (p : List Byte) (s : State) : Host.Outcome State Fault Refusal :=
  .next (raiseIfShort p 4 (answer .nothing (withDevice s (loadIn s.dev p))))

/-- `WRC_OUT` (R265): nothing; a short payload raises nothing, since nothing is packed. -/
def execWrcOut (_p : List Byte) (s : State) : Host.Outcome State Fault Refusal := .next (answer .nothing s)

/-- `RDC_KEY` (R266): `result = ""`. -/
def execRdcKey (s : State) : Host.Outcome State Fault Refusal := .next (answer (.text []) s)

/-- `RDC_IV` (R267): `result = ""`. -/
def execRdcIv (s : State) : Host.Outcome State Fault Refusal := .next (answer (.text []) s)

/-- `RDC_IN` (R268): the input words rendered, never the side record. -/
def execRdcIn (s : State) : Host.Outcome State Fault Refusal := .next (answer (.text (render s.dev.inp)) s)

/-- `RDC_OUT` (R269): the output words rendered. -/
def execRdcOut (s : State) : Host.Outcome State Fault Refusal := .next (answer (.text (render s.dev.out)) s)

/-- `RDC_INVALID(off)` (R270): `InvalidRegisterOffset` when `off` selects no register; `result = ""`. -/
def execRdcInvalid (off : Offset) (s : State) : Host.Outcome State Fault Refusal :=
  .next (raiseIfNoRegister off (answer (.text []) s))

/-- `WRC_INVALID(off)` (R271): `InvalidRegisterOffset` when `off` selects no register, never `MalformedCharPayload`;
nothing else. -/
def execWrcInvalid (off : Offset) (_p : List Byte) (s : State) : Host.Outcome State Fault Refusal :=
  .next (raiseIfNoRegister off (answer .nothing s))

end Sys2Proof.Machine
end

