-- ==== Sys2Proof/Machine/WordAccess.lean ====
section
/-! DEFINITION. The word transactions, one meaning for each operation (45_word_access.md R210 to R231). -/

namespace Sys2Proof.Machine

/-- A word read that returns a stored register; no read has a side effect (20_memory.md R70). -/
def readStored (r : Reg) (s : State) : Host.Outcome State Fault Refusal :=
  .next (answer (.word (readReg s.dev r)) s)

/-- A word read that returns `SENTINEL`; no state change. -/
def readSentinel (s : State) : Host.Outcome State Fault Refusal := .next (answer (.word Config.sentinel) s)

/-- A word write stored verbatim in a register (30_encoding.md R92). -/
def storeWord (r : Reg) (v : Word) (s : State) : Host.Outcome State Fault Refusal :=
  .next (answer .nothing (withDevice s (writeReg s.dev r v)))

/-- A write that changes nothing. -/
def ignoreWrite (s : State) : Host.Outcome State Fault Refusal := .next (answer .nothing s)

/-- `RD_ID` (R210): `result = x[id]`. -/
def execRdId (s : State) : Host.Outcome State Fault Refusal := readStored .id s

/-- `WR_ID` (R211): "`id` is read-only (writes ignored)". -/
def execWrId (_v : Word) (s : State) : Host.Outcome State Fault Refusal := ignoreWrite s

/-- `RD_MODE` (R212): `result = x[mode]`. -/
def execRdMode (s : State) : Host.Outcome State Fault Refusal := readStored .mode s

/-- `WR_MODE` (R213): `x[mode] <- v`. -/
def execWrMode (v : Word) (s : State) : Host.Outcome State Fault Refusal := storeWord .mode v s

/-- `RD_FORMAT` (R214): `result = x[format]`. -/
def execRdFormat (s : State) : Host.Outcome State Fault Refusal := readStored .format s

/-- `WR_FORMAT` (R215): `x[format] <- v`. -/
def execWrFormat (v : Word) (s : State) : Host.Outcome State Fault Refusal := storeWord .format v s

/-- `RD_START` (R216): `result = x[start]`. -/
def execRdStart (s : State) : Host.Outcome State Fault Refusal := readStored .start s

/-- `WR_START` (R217): a nonzero value is stored and runs one operation, zero has no effect. -/
def execWrStart (v : Word) (s : State) : Host.Outcome State Fault Refusal :=
  .next (answer .nothing (withDevice s (writeStart s.dev v)))

/-- `RD_VALID` (R218): `result = x[valid]`. -/
def execRdValid (s : State) : Host.Outcome State Fault Refusal := readStored .valid s

/-- `WR_VALID` (R219): `x[valid] <- v`. -/
def execWrValid (v : Word) (s : State) : Host.Outcome State Fault Refusal := storeWord .valid v s

/-- `RD_KEY(i)` (R220): `result = SENTINEL`; the key word is not returned. -/
def execRdKey (_i : Fin 8) (s : State) : Host.Outcome State Fault Refusal := readSentinel s

/-- `WR_KEY(i)` (R221): `x[key_i] <- v`. -/
def execWrKey (i : Fin 8) (v : Word) (s : State) : Host.Outcome State Fault Refusal := storeWord (.key i) v s

/-- `RD_IV(i)` (R222): `result = SENTINEL`. -/
def execRdIv (_i : Fin 4) (s : State) : Host.Outcome State Fault Refusal := readSentinel s

/-- `WR_IV(i)` (R223): `x[iv_i] <- v`. -/
def execWrIv (i : Fin 4) (v : Word) (s : State) : Host.Outcome State Fault Refusal := storeWord (.iv i) v s

/-- `RD_IN(i)` (R224): `result = x[in_i]`. -/
def execRdIn (i : Fin 4) (s : State) : Host.Outcome State Fault Refusal := readStored (.inp i) s

/-- `WR_IN(i)` (R225): `x[in_i] <- v`. -/
def execWrIn (i : Fin 4) (v : Word) (s : State) : Host.Outcome State Fault Refusal := storeWord (.inp i) v s

/-- `RD_OUT(i)` (R226): `result = x[out_i]`. -/
def execRdOut (i : Fin 4) (s : State) : Host.Outcome State Fault Refusal := readStored (.out i) s

/-- `WR_OUT(i)` (R227): nothing; outputs "are read-only from the external side". -/
def execWrOut (_i : Fin 4) (_v : Word) (s : State) : Host.Outcome State Fault Refusal := ignoreWrite s

/-- `RD_CHARW(r)` (R228): `result = SENTINEL`. -/
def execRdCharw (_c : CharReg) (s : State) : Host.Outcome State Fault Refusal := readSentinel s

/-- `WR_CHARW(r)` (R229): nothing; the write does not fan out to any word register. -/
def execWrCharw (_c : CharReg) (_v : Word) (s : State) : Host.Outcome State Fault Refusal := ignoreWrite s

/-- `RD_INVALID(off)` (R230): `raise InvalidRegisterOffset(off); result = SENTINEL`. -/
def execRdInvalid (off : Offset) (s : State) : Host.Outcome State Fault Refusal :=
  .next (raiseEvent (.invalidRegisterOffset off) (answer (.word Config.sentinel) s))

/-- `WR_INVALID(off)` (R231): `raise InvalidRegisterOffset(off)`, nothing else. -/
def execWrInvalid (off : Offset) (_v : Word) (s : State) : Host.Outcome State Fault Refusal :=
  .next (raiseEvent (.invalidRegisterOffset off) (answer .nothing s))

end Sys2Proof.Machine
end

