-- ==== Sys2Proof/Machine/Dispatch.lean ====
section
/-! DEFINITION. One arm for each constructor of Instr: the operation decoded (30_encoding.md R93) to its rule. -/

namespace Sys2Proof.Machine

def exec (i : Instr) (s : State) : Host.Outcome State Fault Refusal :=
  match i with
  | .rdId => Sys2Proof.Machine.execRdId s
  | .wrId v => Sys2Proof.Machine.execWrId v s
  | .rdMode => Sys2Proof.Machine.execRdMode s
  | .wrMode v => Sys2Proof.Machine.execWrMode v s
  | .rdFormat => Sys2Proof.Machine.execRdFormat s
  | .wrFormat v => Sys2Proof.Machine.execWrFormat v s
  | .rdStart => Sys2Proof.Machine.execRdStart s
  | .wrStart v => Sys2Proof.Machine.execWrStart v s
  | .rdValid => Sys2Proof.Machine.execRdValid s
  | .wrValid v => Sys2Proof.Machine.execWrValid v s
  | .rdKey k => Sys2Proof.Machine.execRdKey k s
  | .wrKey k v => Sys2Proof.Machine.execWrKey k v s
  | .rdIv k => Sys2Proof.Machine.execRdIv k s
  | .wrIv k v => Sys2Proof.Machine.execWrIv k v s
  | .rdIn k => Sys2Proof.Machine.execRdIn k s
  | .wrIn k v => Sys2Proof.Machine.execWrIn k v s
  | .rdOut k => Sys2Proof.Machine.execRdOut k s
  | .wrOut k v => Sys2Proof.Machine.execWrOut k v s
  | .rdCharw c => Sys2Proof.Machine.execRdCharw c s
  | .wrCharw c v => Sys2Proof.Machine.execWrCharw c v s
  | .rdInvalid off => Sys2Proof.Machine.execRdInvalid off s
  | .wrInvalid off v => Sys2Proof.Machine.execWrInvalid off v s
  | .rdcKey => Sys2Proof.Machine.execRdcKey s
  | .wrcKey p => Sys2Proof.Machine.execWrcKey p s
  | .rdcIv => Sys2Proof.Machine.execRdcIv s
  | .wrcIv p => Sys2Proof.Machine.execWrcIv p s
  | .rdcIn => Sys2Proof.Machine.execRdcIn s
  | .wrcIn p => Sys2Proof.Machine.execWrcIn p s
  | .rdcOut => Sys2Proof.Machine.execRdcOut s
  | .wrcOut p => Sys2Proof.Machine.execWrcOut p s
  | .rdcInvalid off => Sys2Proof.Machine.execRdcInvalid off s
  | .wrcInvalid off p => Sys2Proof.Machine.execWrcInvalid off p s

end Sys2Proof.Machine
end

