-- ==== Sys2Proof/Machine/Step.lean ====
section
/-! DEFINITION. One step: the next transaction of the host's sequence is applied, atomically and completely
(00_scope.md R7; 20_memory.md R69, R71). -/

namespace Sys2Proof.Machine

/-- One transaction, taken from the head of the host's sequence, decoded (30_encoding.md R93) and executed. While `fsm` is
`Computing` no transaction is accepted (44_device_operation.md R195; DEDUCED, notes/assumptions/9.md); a word access of
another width is refused (20_memory.md R65; notes/assumptions/8.md); with none pending the device does nothing ("The device
never initiates anything", 20_memory.md R80; DESIGN CHOICE, notes/assumptions/1.md). -/
def step (s : State) : Host.Outcome State Fault Refusal :=
  match s.dev.fsm with
  | .computing => .refused .computing
  | .idle =>
    match s.host.pending with
    | [] => .next s
    | a :: rest =>
      match decode s.in3 a with
      | .ok i => exec i (takeTransaction rest s)
      | .error (.unsupportedWidth size) => .refused (.unsupportedWidth size)

/-- `s` with the access of a table word as the very next transaction of the host's sequence, before any pending one:
what loads a program here is the host that issues its transactions (10_state.md R44; notes/assumptions/1.md). -/
def State.withFetchWord (s : State) (_nbits w : Nat) : State := issueNext (accessOfTableWord w) s

end Sys2Proof.Machine
end

