-- ==== Sys2Proof/Machine/Pseudo.lean ====
section
/-! DEFINITION. The pseudo-instructions of 30_encoding.md R98: each is an exact expansion into transactions of R97. -/

namespace Sys2Proof.Machine

/-- `setkey K`: `wr key_i, WordLE(K[4i], .., K[4i+3])` for i in 0..7 (R98). -/
def pseudoSetKey (k : Key) : List Instr :=
  [.wrKey 0 (wordOfQuad k.lo.c0), .wrKey 1 (wordOfQuad k.lo.c1), .wrKey 2 (wordOfQuad k.lo.c2),
   .wrKey 3 (wordOfQuad k.lo.c3), .wrKey 4 (wordOfQuad k.hi.c0), .wrKey 5 (wordOfQuad k.hi.c1),
   .wrKey 6 (wordOfQuad k.hi.c2), .wrKey 7 (wordOfQuad k.hi.c3)]

/-- `setiv V`: `wr iv_i, WordLE(V[4i], .., V[4i+3])` for i in 0..3 (R98). -/
def pseudoSetIv (v : Block) : List Instr :=
  [.wrIv 0 (wordOfQuad v.c0), .wrIv 1 (wordOfQuad v.c1), .wrIv 2 (wordOfQuad v.c2), .wrIv 3 (wordOfQuad v.c3)]

/-- `setin B`: `wr in_i, WordLE(B[4i], .., B[4i+3])` for i in 0..3 (R98). -/
def pseudoSetIn (b : Block) : List Instr :=
  [.wrIn 0 (wordOfQuad b.c0), .wrIn 1 (wordOfQuad b.c1), .wrIn 2 (wordOfQuad b.c2), .wrIn 3 (wordOfQuad b.c3)]

/-- `getout`: `rd out_0; rd out_1; rd out_2; rd out_3` (R98). -/
def pseudoGetOut : List Instr := [.rdOut 0, .rdOut 1, .rdOut 2, .rdOut 3]

/-- `run m, f`: `wr mode, m; wr format, f; wr start, 1` (R98). -/
def pseudoRun (m f : Word) : List Instr := [.wrMode m, .wrFormat f, .wrStart 1]

/-- The accesses the host issues for a list of operations (30_encoding.md R91, R97). -/
def assemble (m : In3Offset) (l : List Instr) : List Access := l.map (encode m)

end Sys2Proof.Machine
end

