-- ==== Sys2Proof/Safety.lean ====
section
/-! DEFINITION. The terms the statements use: the invariant of the machine, the runs that never stop, the orders in which
several callers' transactions may take effect, and what two states must share for an observer not to tell them apart. -/

namespace Sys2Proof.Safety

open Sys2Proof.Machine

/-- The machine's invariant: every transaction begins and ends with `fsm = Idle` (10_state.md R41), and `id` holds
`ID_VALUE` from reset on (R31). -/
def Invariant (s : State) : Prop := s.dev.fsm = .idle ∧ s.dev.id = Config.idValue

/-- A state from which no step is refused: `fsm` is idle and every pending access is one the interface has (20_memory.md
R65; 44_device_operation.md R195). -/
def Legal (s : State) : Prop := s.dev.fsm = .idle ∧ ∀ a ∈ s.host.pending, accessSize a = 4

/-- The total orders in which several callers' transactions may take effect: every interleaving that keeps each caller's
own order (20_memory.md R71). -/
inductive Interleaves : List (List Access) → List Access → Prop where
  | done (qs : List (List Access)) (h : ∀ q ∈ qs, q = []) : Interleaves qs []
  | take (qs : List (List Access)) (c : Nat) (hc : c < qs.length) (a : Access) (rest as : List Access)
      (hq : qs[c] = a :: rest) (h : Interleaves (qs.set c rest) as) : Interleaves qs (a :: as)

/-- Two devices that differ at most in the side records (10_state.md R40). -/
def SameButRecords (d e : Device) : Prop :=
  e = { d with recKey := e.recKey, recIv := e.recIv, recIn := e.recIn }

/-- Two devices that differ at most in what the host cannot read back: the key and IV words and the side records (R45). -/
def SameButSecrets (d e : Device) : Prop :=
  e = { d with key := e.key, iv := e.iv, recKey := e.recKey, recIv := e.recIv, recIn := e.recIn }

/-- Two states the host has observed the same of, and whose devices are related. -/
def StatesAgree (r : Device → Device → Prop) (s t : State) : Prop :=
  r s.dev t.dev ∧ s.in3 = t.in3 ∧ s.host = t.host

/-- Two outcomes of the same kind whose next states agree, or which are refused for the same reason. -/
def OutcomesAgree (r : Device → Device → Prop) :
    Host.Outcome State Fault Refusal → Host.Outcome State Fault Refusal → Prop
  | .next s, .next t => StatesAgree r s t
  | .refused x, .refused y => x = y
  | .fault x, .fault y => x = y
  | .next _, .refused _ => False
  | .next _, .fault _ => False
  | .refused _, .next _ => False
  | .refused _, .fault _ => False
  | .fault _, .next _ => False
  | .fault _, .refused _ => False

/-- No pending transaction triggers an operation: none is a nonzero write to `start` (44_device_operation.md R194). -/
def TriggerFree (s : State) : Prop :=
  ∀ a ∈ s.host.pending, ∀ v, decode s.in3 a = .ok (.wrStart v) → v = 0

/-- The number a block stands for when byte 0 is the most significant (43_modes.md R173). -/
def blockNumber (b : Block) : Nat := (blockBytes b).foldl (fun n x => 256 * n + x.toNat) 0

/-- The counter block after `n` increments (R173). -/
def counterAfter : Nat → Block → Block
  | 0, q => q
  | n + 1, q => counterAfter n (ctrIncrement q)

/-- Block `j` of a buffer: its bytes 16j..16j+15 (43_modes.md R175, R176). -/
def bufferBlock (d : List Byte) (j : Nat) : Block := blockOfBytes ((d.drop (16 * j)).take 16)

/-- The number a string of ASCII decimal digits stands for (46_char_access.md R261). -/
def decimalValue (t : List Byte) : Nat := t.foldl (fun n x => 10 * n + (x.toNat - 0x30)) 0

/-- Byte `k` of a payload, zero beyond its end: what truncation and zero-fill leave there (R260). -/
def payloadByte (p : List Byte) (k : Nat) : Byte := p.getD k 0x00

/-- Word `i` of a payload, little-endian (R260; 20_memory.md R67). -/
def payloadWord (p : List Byte) (i : Nat) : Word :=
  wordLE (payloadByte p (4 * i)) (payloadByte p (4 * i + 1)) (payloadByte p (4 * i + 2)) (payloadByte p (4 * i + 3))

/-- The host's side after a transaction that gave back `r` and raised `e`; nothing else of it changes. -/
def answered (s : State) (r : Result) (e : Option Event) : HostPort := { s.host with result := r, event := e }

/-- The device after a triggered operation of the start value `v` (44_device_operation.md R190, R192, R193): `start` and
the four output words, and `fsm` back at idle. -/
def operated (d : Device) (v : Word) : Device :=
  { d with
    start := v
    out := wordsOfBlock (engineRun d.mode d.format (keyOfWords d.key) (blockOfWords d.iv) (blockOfWords d.inp))
    fsm := .idle }

/-- The descriptor `t`, with the operands `v` and `p` beside it, decodes to `i` (30_encoding.md R91, R93). -/
def Decodes (m : In3Offset) (t : Descriptor) (v : Word) (p : List Byte) (i : Instr) : Prop :=
  decode m (accessOfDescriptor t v p) = .ok i

/-- The machine after `n` steps from `s`. -/
def runs (n : Nat) (s : State) : Host.Outcome State Fault Refusal := Host.Core.run Sys2Proof.core n s

/-- The zero quad. -/
def zeroQuad : ByteQuad := ⟨0, 0, 0, 0⟩

end Sys2Proof.Safety
end

