-- ==== Sys2Proof/Certificates/Slice0/Obligations.lean ====
section
/-! DEFINITION. The statements about the machine, for the provers. Each names the rules of spec/ it comes from; the next
state of an instruction is written out whole, so that an equation is also the instruction's frame and says that it completes.
What a transaction gives back and raises stands in the host's side of State, the model's own record (notes/assumptions/2.md);
most rules carry a decision the spec marks as its own, and a statement that rests on one is listed as derived. -/

open Sys2Proof Sys2Proof.Machine Sys2Proof.Safety

/-! ## Encoding and decoding -/

/-- The worked encodings of 30_encoding.md R99, decoded on the default map and encoded back. -/
def Obligations.ExampleDescriptorsDecode : Prop :=
  (∀ p, Decodes .literal 0x200000018 1 p (.wrStart 1)) ∧
  (∀ v p, Decodes .literal 0x000000108 v p (.rdOut 0)) ∧
  (∀ v p, Decodes .literal 0x300000128 v p (.wrcKey p)) ∧
  (∀ v p, Decodes .literal 0x100000140 v p .rdcOut) ∧
  (∀ v p, Decodes .literal 0x0000000A0 v p (.rdInvalid 0x0A0)) ∧
  encodeDescriptor .literal (.wrStart 1) = 0x200000018 ∧
  encodeDescriptor .literal (.rdOut 0) = 0x000000108 ∧
  (∀ p, encodeDescriptor .literal (.wrcKey p) = 0x300000128) ∧
  encodeDescriptor .literal .rdcOut = 0x100000140 ∧
  encodeDescriptor .literal (.rdInvalid 0x0A0) = 0x0000000A0

/-- Decoding an encoded well-formed instruction gives it back, with every operand at every value, on both maps (R91 to R93). -/
def Obligations.DecodeOfEncodeIsTheInstruction : Prop :=
  ∀ m i, i.wf m = true → decode m (encode m i) = .ok i

/-- Whatever decodes is well formed and encodes back to the very access it was decoded from, so no two accesses stand for
one instruction (R91 to R93). -/
def Obligations.DecodedAccessIsCanonical : Prop :=
  ∀ m a i, decode m a = .ok i → i.wf m = true ∧ encode m i = a

/-- Every one of the 2^34 descriptors decodes to a well-formed instruction, and two descriptors of four-byte accesses that
decode alike, with the operands beside them, are equal (R93, R95). -/
def Obligations.EveryDescriptorDecodesToItsOwnInstruction : Prop :=
  ∀ m t v p, ∃ i, Decodes m t v p i ∧ i.wf m = true ∧ ∀ u w q, Decodes m u w q i → u = t

/-- An offset selects a register exactly when it is that register's offset, and the map's access attributes are those of
20_memory.md R62 (R62, R64). -/
def Obligations.RegisterMapIsExact : Prop :=
  (∀ m off r, regAt m off = some r ↔ off = offsetOf m r) ∧
  (∀ m row, row ∈ registerMap m → row.off = offsetOf m row.reg ∧ row.attr = attributeOf row.reg) ∧
  ∀ m, (registerMap m).length = 29

/-- With `IN3_OFFSET = 0xA0` the register `in_3` moves to 0x0A0, 0x100 becomes invalid, and nothing else moves (R63). -/
def Obligations.AlternativeIn3OffsetMovesOneRegister : Prop :=
  ∀ off, regAt .uniform off =
    if off = 0x100 then none else if off = 0x0A0 then some (.word (.inp 3)) else regAt .literal off

/-! ## The step -/

/-- When the next pending access decodes, the step is its instruction at the state with that access taken from the sequence
and the position advanced by one (10_state.md R44; 20_memory.md R71; the pending sequence is the model's form of the host's,
notes/assumptions/1.md). -/
def Obligations.StepRunsTheDecodedTransaction : Prop :=
  ∀ s a rest i, s.dev.fsm = .idle → s.host.pending = a :: rest → decode s.in3 a = .ok i →
    step s = exec i { s with host := { s.host with pending := rest, position := s.host.position + 1 } }

/-- Where a step runs no instruction: a word access of another width is refused (20_memory.md R65), no transaction is
accepted while `fsm` is `Computing` (44_device_operation.md R195), and with none pending the device initiates nothing
(20_memory.md R80). That the idle step answers the same state, and that the other two are refusals, is the model's choice
(notes/assumptions/1.md, 8.md, 9.md). -/
def Obligations.StepsThatRunNoInstruction : Prop :=
  (∀ s a rest, s.dev.fsm = .idle → s.host.pending = a :: rest → accessSize a ≠ 4 →
    step s = .refused (.unsupportedWidth (accessSize a))) ∧
  (∀ s, s.dev.fsm = .computing → step s = .refused .computing) ∧
  ∀ s, s.dev.fsm = .idle → s.host.pending = [] → step s = .next s

/-! ## Word transactions -/

/-- `RD_ID`, `RD_MODE`, `RD_FORMAT`, `RD_START`, `RD_VALID`: each gives back the stored word, raw, and changes nothing of the
device; `id` gives `ID_VALUE` wherever the invariant holds (45_word_access.md R210, R212, R214, R216, R218). The clauses of
`id`, `start` and `valid` rest on the spec's decisions D5, D8 and D9 (notes/assumptions/6.md, 11.md). -/
def Obligations.ControlReadsReturnTheStoredWord : Prop :=
  ∀ m v p s,
    (Decodes m 0x000000000 v p .rdId ∧
      exec .rdId s = .next { s with host := answered s (.word s.dev.id) none } ∧
      (Invariant s → exec .rdId s = .next { s with host := answered s (.word Config.idValue) none })) ∧
    (Decodes m 0x000000008 v p .rdMode ∧
      exec .rdMode s = .next { s with host := answered s (.word s.dev.mode) none }) ∧
    (Decodes m 0x000000010 v p .rdFormat ∧
      exec .rdFormat s = .next { s with host := answered s (.word s.dev.format) none }) ∧
    (Decodes m 0x000000018 v p .rdStart ∧
      exec .rdStart s = .next { s with host := answered s (.word s.dev.start) none }) ∧
    (Decodes m 0x000000020 v p .rdValid ∧
      exec .rdValid s = .next { s with host := answered s (.word s.dev.valid) none })

/-- `WR_ID` changes nothing; `WR_MODE`, `WR_FORMAT`, `WR_VALID` store the value verbatim in their one register and run no
operation (R211, R213, R215, R219). -/
def Obligations.ControlWritesStoreVerbatim : Prop :=
  ∀ m v p s,
    (Decodes m 0x200000000 v p (.wrId v) ∧
      exec (.wrId v) s = .next { s with host := answered s .nothing none }) ∧
    (Decodes m 0x200000008 v p (.wrMode v) ∧
      exec (.wrMode v) s = .next { s with dev := { s.dev with mode := v }, host := answered s .nothing none }) ∧
    (Decodes m 0x200000010 v p (.wrFormat v) ∧
      exec (.wrFormat v) s = .next { s with dev := { s.dev with format := v }, host := answered s .nothing none }) ∧
    (Decodes m 0x200000020 v p (.wrValid v) ∧
      exec (.wrValid v) s = .next { s with dev := { s.dev with valid := v }, host := answered s .nothing none })

/-- `WR_START`: a nonzero value is stored and runs one operation on the latched registers, which writes the four output
words and nothing else; a zero write changes no register (R217; 44_device_operation.md R190, R192, R193). -/
def Obligations.StartWriteRunsOneOperation : Prop :=
  ∀ m v p s,
    Decodes m 0x200000018 v p (.wrStart v) ∧
    (v ≠ 0 → exec (.wrStart v) s = .next { s with dev := operated s.dev v, host := answered s .nothing none }) ∧
    (v = 0 → exec (.wrStart v) s = .next { s with host := answered s .nothing none })

/-- `RD_KEY(i)` and `RD_IV(i)`: the nonzero `SENTINEL`, whatever the word holds, and no state change (R220, R222). -/
def Obligations.KeyAndIvReadsReturnSentinel : Prop :=
  Config.sentinel ≠ 0 ∧ ∀ m v p s,
    (∀ i : Fin 8, Decodes m (0x000000028 + 8 * BitVec.ofNat 34 i.val) v p (.rdKey i) ∧
      exec (.rdKey i) s = .next { s with host := answered s (.word Config.sentinel) none }) ∧
    ∀ i : Fin 4, Decodes m (0x000000068 + 8 * BitVec.ofNat 34 i.val) v p (.rdIv i) ∧
      exec (.rdIv i) s = .next { s with host := answered s (.word Config.sentinel) none }

/-- `WR_KEY(i)` and `WR_IV(i)`: word i is stored, the others and everything else stay, and the engine's bytes 4i..4i+3
become the value's bytes, least significant first (R221, R223; 20_memory.md R66). -/
def Obligations.KeyAndIvWritesStoreTheirWord : Prop :=
  ∀ m v p s,
    (∀ i : Fin 8, Decodes m (0x200000028 + 8 * BitVec.ofNat 34 i.val) v p (.wrKey i v) ∧
      ∃ t, exec (.wrKey i v) s = .next t ∧
        t = { s with dev := { s.dev with key := t.dev.key }, host := answered s .nothing none } ∧
        (∀ j : Fin 8, t.dev.key.get j = if j = i then v else s.dev.key.get j) ∧
        ∀ j < 4, (keyBytes (keyOfWords t.dev.key)).getD (4 * i.val + j) 0 = byteOf v j) ∧
    ∀ i : Fin 4, Decodes m (0x200000068 + 8 * BitVec.ofNat 34 i.val) v p (.wrIv i v) ∧
      ∃ t, exec (.wrIv i v) s = .next t ∧
        t = { s with dev := { s.dev with iv := t.dev.iv }, host := answered s .nothing none } ∧
        (∀ j : Fin 4, t.dev.iv.get j = if j = i then v else s.dev.iv.get j) ∧
        ∀ j < 4, (blockBytes (blockOfWords t.dev.iv)).getD (4 * i.val + j) 0 = byteOf v j

/-- `RD_IN(i)` gives back the stored word and `WR_IN(i)` stores it and its four bytes, `in_3` standing at `IN3_OFFSET`
(R224, R225). -/
def Obligations.InputWordsAreReadAndWritten : Prop :=
  ∀ m v p s, ∀ i : Fin 4,
    Decodes m (mkDescriptor false false (if i = 3 then in3At m else 0x088 + 8 * BitVec.ofNat 32 i.val)) v p (.rdIn i) ∧
    exec (.rdIn i) s = .next { s with host := answered s (.word (s.dev.inp.get i)) none } ∧
    Decodes m (mkDescriptor true false (if i = 3 then in3At m else 0x088 + 8 * BitVec.ofNat 32 i.val)) v p (.wrIn i v) ∧
    ∃ t, exec (.wrIn i v) s = .next t ∧
      t = { s with dev := { s.dev with inp := t.dev.inp }, host := answered s .nothing none } ∧
      (∀ j : Fin 4, t.dev.inp.get j = if j = i then v else s.dev.inp.get j) ∧
      ∀ j < 4, (blockBytes (blockOfWords t.dev.inp)).getD (4 * i.val + j) 0 = byteOf v j

/-- `RD_OUT(i)` gives back the stored output word and `WR_OUT(i)` is dropped entirely, for any value (R226, R227). -/
def Obligations.OutputWordsAreReadOnly : Prop :=
  ∀ m v p s, ∀ i : Fin 4,
    Decodes m (0x000000108 + 8 * BitVec.ofNat 34 i.val) v p (.rdOut i) ∧
    exec (.rdOut i) s = .next { s with host := answered s (.word (s.dev.out.get i)) none } ∧
    Decodes m (0x200000108 + 8 * BitVec.ofNat 34 i.val) v p (.wrOut i v) ∧
    exec (.wrOut i v) s = .next { s with host := answered s .nothing none }

/-- A word read at a char register's offset gives `SENTINEL` and a word write there changes nothing (R228, R229). -/
def Obligations.WordAccessAtCharOffsetsHasNoEffect : Prop :=
  ∀ m v p s c,
    Decodes m (mkDescriptor false false (charOffset c)) v p (.rdCharw c) ∧
    exec (.rdCharw c) s = .next { s with host := answered s (.word Config.sentinel) none } ∧
    Decodes m (mkDescriptor true false (charOffset c)) v p (.wrCharw c v) ∧
    exec (.wrCharw c v) s = .next { s with host := answered s .nothing none }

/-- A word access at any offset of no register: a read gives the same nonzero `SENTINEL`, a write changes nothing, and each
raises `InvalidRegisterOffset` with the offset; 0x004, 0x0F8, 0x144 and 0xFFFFFFFC are such offsets, and 0x0A0 on the
default map (R230, R231). -/
def Obligations.WordAccessAtInvalidOffsets : Prop :=
  Config.sentinel ≠ 0 ∧
  (∀ m v p s off, regAt m off = none →
    Decodes m (mkDescriptor false false off) v p (.rdInvalid off) ∧
    exec (.rdInvalid off) s =
      .next { s with host := answered s (.word Config.sentinel) (some (.invalidRegisterOffset off)) } ∧
    Decodes m (mkDescriptor true false off) v p (.wrInvalid off v) ∧
    exec (.wrInvalid off v) s = .next { s with host := answered s .nothing (some (.invalidRegisterOffset off)) }) ∧
  (∀ m, regAt m 0x004 = none ∧ regAt m 0x01C = none ∧ regAt m 0x0F8 = none ∧ regAt m 0x144 = none ∧
    regAt m 0xFFFFFFFC = none) ∧
  regAt .literal 0x0A0 = none

/-! ## Char transactions -/

/-- `WRC_KEY`, `WRC_IV`, `WRC_IN`: every destination word is the payload's, zero beyond a short payload and cut at a long
one; the side record is the payload as supplied; a short payload raises `MalformedCharPayload`; nothing else changes
(46_char_access.md R262, R263, R264, with R260 and R302). -/
def Obligations.CharWritesLoadTheWords : Prop :=
  ∀ m v p s,
    (Decodes m 0x300000128 v p (.wrcKey p) ∧
      ∃ t, exec (.wrcKey p) s = .next t ∧
        t = { s with
          dev := { s.dev with key := t.dev.key, recKey := p }
          host := answered s .nothing (if p.length < 32 then some (.malformedCharPayload p.length) else none) } ∧
        ∀ i : Fin 8, t.dev.key.get i = payloadWord p i.val) ∧
    (Decodes m 0x300000130 v p (.wrcIv p) ∧
      ∃ t, exec (.wrcIv p) s = .next t ∧
        t = { s with
          dev := { s.dev with iv := t.dev.iv, recIv := p }
          host := answered s .nothing (if p.length < 16 then some (.malformedCharPayload p.length) else none) } ∧
        ∀ i : Fin 4, t.dev.iv.get i = payloadWord p i.val) ∧
    (Decodes m 0x300000138 v p (.wrcIn p) ∧
      ∃ t, exec (.wrcIn p) s = .next t ∧
        t = { s with
          dev := { s.dev with inp := t.dev.inp, recIn := p }
          host := answered s .nothing (if p.length < 16 then some (.malformedCharPayload p.length) else none) } ∧
        ∀ i : Fin 4, t.dev.inp.get i = payloadWord p i.val)

/-- `RDC_KEY` and `RDC_IV` give the empty string, `RDC_IN` and `RDC_OUT` the words rendered, never the side record; no state
change (R266 to R269). -/
def Obligations.CharReadsRenderOrAreEmpty : Prop :=
  ∀ m v p s,
    (Decodes m 0x100000128 v p .rdcKey ∧ exec .rdcKey s = .next { s with host := answered s (.text []) none }) ∧
    (Decodes m 0x100000130 v p .rdcIv ∧ exec .rdcIv s = .next { s with host := answered s (.text []) none }) ∧
    (Decodes m 0x100000138 v p .rdcIn ∧
      exec .rdcIn s = .next { s with host := answered s (.text (render s.dev.inp)) none }) ∧
    (Decodes m 0x100000140 v p .rdcOut ∧
      exec .rdcOut s = .next { s with host := answered s (.text (render s.dev.out)) none })

/-- `WRC_OUT` changes nothing and raises nothing, whatever the payload; a char access at an offset that is no char
register's reads as the empty string and writes nothing, and raises `InvalidRegisterOffset` exactly when the offset
selects no register (R265, R270, R271). -/
def Obligations.CharAccessWithoutEffect : Prop :=
  ∀ v p s,
    (∀ m, Decodes m 0x300000140 v p (.wrcOut p)) ∧
    exec (.wrcOut p) s = .next { s with host := answered s .nothing none } ∧
    ∀ off, (∀ c, off ≠ charOffset c) →
      Decodes s.in3 (mkDescriptor false true off) v p (.rdcInvalid off) ∧
      exec (.rdcInvalid off) s = .next { s with
        host := answered s (.text []) (if regAt s.in3 off = none then some (.invalidRegisterOffset off) else none) } ∧
      Decodes s.in3 (mkDescriptor true true off) v p (.wrcInvalid off p) ∧
      exec (.wrcInvalid off p) s = .next { s with
        host := answered s .nothing (if regAt s.in3 off = none then some (.invalidRegisterOffset off) else none) }

/-- `PackPayload(P, n)` gives exactly n words, word i made of the payload's bytes 4i..4i+3, little-endian, with zero for
every byte beyond the payload's end (R260). -/
def Obligations.PackedPayloadWords : Prop :=
  ∀ p n, (packPayload p n).length = n ∧ ∀ i < n, (packPayload p n)[i]? = some (payloadWord p i)

/-- The text of a char read: 32 to 64 bytes, one line feed at the end, and before it the sixteen byte values in order, each
in decimal digits with no leading zero, parted by single spaces (R261). -/
def Obligations.RenderedTextShape : Prop :=
  (∀ ws, 32 ≤ (render ws).length ∧ (render ws).length ≤ 64 ∧
    ∃ parts : List (List Byte),
      parts.length = 16 ∧ render ws = List.intercalate [0x20] parts ++ [0x0A] ∧
      parts = (blockBytes (blockOfWords ws)).map decimalBytes) ∧
  ∀ b : Byte, decimalValue (decimalBytes b) = b.toNat ∧ (∀ d ∈ decimalBytes b, 0x30 ≤ d.toNat ∧ d.toNat ≤ 0x39) ∧
    ((decimalBytes b).head? = some 0x30 → decimalBytes b = [0x30])

/-! ## What no transaction does -/

/-- Every read completes, leaves the device as it was and is idempotent: done again it changes nothing at all (20_memory.md
R70). -/
def Obligations.ReadsLeaveTheDeviceUnchanged : Prop :=
  ∀ m i s, descriptorDir (encodeDescriptor m i) = false →
    ∃ t, exec i s = .next t ∧ t.dev = s.dev ∧ t.in3 = s.in3 ∧ t.host.pending = s.host.pending ∧
      t.host.position = s.host.position ∧ exec i t = .next t

/-- A word write at a register's offset touches that register alone, `start` apart: a read-only register keeps its word, any
other takes the value, and every other register, the side records and `fsm` stay (20_memory.md R62, R68). -/
def Obligations.WordWriteTouchesOneRegister : Prop :=
  ∀ s r v, r ≠ .start →
    ∃ i t, decode s.in3 (.memWrite (regOffset s.in3 r) 4 v) = .ok i ∧ exec i s = .next t ∧
      readReg t.dev r = (if attributeOf (.word r) = .ro then readReg s.dev r else v) ∧
      (∀ q, q ≠ r → readReg t.dev q = readReg s.dev q) ∧
      t.dev.recKey = s.dev.recKey ∧ t.dev.recIv = s.dev.recIv ∧ t.dev.recIn = s.dev.recIn ∧ t.dev.fsm = s.dev.fsm

/-- The protection of the registers, the same for every caller: a write of either view to a read-only register leaves the
whole device unchanged; a read of either view of a write-only register gives `SENTINEL` or the empty string, whatever the
device holds (60_exceptions.md R308; 20_memory.md R62). -/
def Obligations.AttributesProtectRegisters : Prop :=
  ∀ s r v p,
    (attributeOf r = .ro → ∃ i j t u,
      decode s.in3 (.memWrite (offsetOf s.in3 r) 4 v) = .ok i ∧ exec i s = .next t ∧ t.dev = s.dev ∧
      decode s.in3 (.charWrite (offsetOf s.in3 r) p) = .ok j ∧ exec j s = .next u ∧ u.dev = s.dev) ∧
    (attributeOf r = .wo → ∃ i j t u,
      decode s.in3 (.memRead (offsetOf s.in3 r) 4) = .ok i ∧ exec i s = .next t ∧
        t.host.result = .word Config.sentinel ∧
      decode s.in3 (.charRead (offsetOf s.in3 r)) = .ok j ∧ exec j s = .next u ∧ u.host.result = .text [])

/-- The trigger count: a nonzero write to `start` runs one operation, which replaces all four output words; a zero write
leaves the device as it was; and no other instruction, of either view, runs one: after it `out`, `start` and `fsm` are as
before (44_device_operation.md R192, R193, R194; 45_word_access.md R217). What an operation stores and keeps rests on the
spec's decisions D2, D8, D9 and D27 (notes/assumptions/11.md). -/
def Obligations.OnlyNonzeroStartWritesOperate : Prop :=
  (∀ s v, v ≠ 0 → ∃ t, exec (.wrStart v) s = .next t ∧ t.dev = operated s.dev v) ∧
  (∀ s, ∃ t, exec (.wrStart 0) s = .next t ∧ t.dev = s.dev) ∧
  ∀ i s t, exec i s = .next t → (∀ v, i = .wrStart v → v = 0) →
    t.dev.out = s.dev.out ∧ t.dev.start = s.dev.start ∧ t.dev.fsm = s.dev.fsm

/-- An operation is a function of the registers it reads: two states with the same selectors, key, IV and input give the same
outputs, whatever else they hold, and triggering again stores the same output again (R191, R193, R196). -/
def Obligations.OperationReadsOnlyItsLatchedRegisters : Prop :=
  ∀ s s' v v', v ≠ 0 → v' ≠ 0 →
    s.dev.mode = s'.dev.mode → s.dev.format = s'.dev.format → s.dev.key = s'.dev.key → s.dev.iv = s'.dev.iv →
    s.dev.inp = s'.dev.inp →
    ∃ t t' u, exec (.wrStart v) s = .next t ∧ exec (.wrStart v') s' = .next t' ∧ t.dev.out = t'.dev.out ∧
      exec (.wrStart v') t = .next u ∧ u.dev = { t.dev with start := v' }

/-- Three transactions of one caller in their order, an input write, a trigger and an output read: the operation latches the
word just written and the read gives the completed result (20_memory.md R72). -/
def Obligations.WriteThenTriggerThenRead : Prop :=
  ∀ s i v w j rest, s.dev.fsm = .idle → w ≠ 0 →
    s.host.pending = encode s.in3 (.wrIn i v) :: encode s.in3 (.wrStart w) :: encode s.in3 (.rdOut j) :: rest →
    ∃ t, runs 3 s = .next t ∧ t.host.pending = rest ∧ t.host.position = s.host.position + 3 ∧
      t.host.result = .word ((wordsOfBlock (engineRun s.dev.mode s.dev.format (keyOfWords s.dev.key)
        (blockOfWords s.dev.iv) (blockOfWords (s.dev.inp.set i.val v i.isLt)))).get j)

/-- The whole use of the device, from any idle state whatever its registers hold, so from any reset contents: key, IV and
input written, mode and format set, a trigger: 19 transactions later the outputs are the engine's for those very operands,
and `getout` after it ends with the fourth output word and changes nothing of the device (30_encoding.md R98; 70_reset_and_hazards.md R333;
44_device_operation.md R190, R191). -/
def Obligations.SetUpAndRunComputesTheEngine : Prop :=
  ∀ s k v b m f, s.dev.fsm = .idle → s.host.pending = [] →
    ∃ t u,
      runs 19 (issue (assemble s.in3 (pseudoSetKey k ++ pseudoSetIv v ++ pseudoSetIn b ++ pseudoRun m f)) s) = .next t ∧
      t.dev.out = wordsOfBlock (engineRun m f k v b) ∧ t.dev.valid = s.dev.valid ∧ t.dev.id = s.dev.id ∧
      t.host.pending = [] ∧ t.host.position = s.host.position + 19 ∧
      runs 4 (issue (assemble s.in3 pseudoGetOut) t) = .next u ∧
      u.host.result = .word (wordOfQuad (engineRun m f k v b).c3) ∧ u.dev = t.dev

/-! ## Reset, invariants and runs -/

/-- The reset state of 70_reset_and_hazards.md R331, for either `RESET_STORAGE` and either map: `id`, the 24 storage
registers, the side records, `fsm`; that the machine's own reset takes the default map and `zero` is the model's choice of
the parameters (notes/assumptions/3.md, 4.md). -/
def Obligations.ResetStateValues : Prop :=
  (∀ m c, (State.resetWith m c).dev.id = Config.idValue ∧
    (∀ r, r ≠ .id → readReg (State.resetWith m c).dev r = resetWord c r) ∧
    (State.resetWith m c).dev.recKey = [] ∧ (State.resetWith m c).dev.recIv = [] ∧
    (State.resetWith m c).dev.recIn = [] ∧ (State.resetWith m c).dev.fsm = .idle) ∧
  (∀ r, resetWord .zero r = 0) ∧ (∀ f r, resetWord (.draw f) r = f r) ∧
  State.reset = State.resetWith .literal .zero

/-- The invariant holds at reset, for either `RESET_STORAGE` and either map (10_state.md R31, R41). -/
def Obligations.InvariantHoldsAtReset : Prop :=
  (∀ m c, Invariant (State.resetWith m c)) ∧ Invariant State.reset

/-- Every step keeps the invariant, from every state that meets it, and never changes the parameter `IN3_OFFSET`
(10_state.md R31, R41; 44_device_operation.md R195). -/
def Obligations.StepKeepsTheInvariant : Prop :=
  ∀ s t, Invariant s → step s = .next t → Invariant t ∧ t.in3 = s.in3

/-- A run of four-byte and char accesses never stops: every transaction is applied, in order, and the position counts them
(60_exceptions.md R300, R303; 30_encoding.md R95; 10_state.md R44). -/
def Obligations.LegalRunsNeverStop : Prop :=
  ∀ n s, Legal s → ∃ t, runs n s = .next t ∧ Legal t ∧ t.host.pending = s.host.pending.drop n ∧
    t.host.position = s.host.position + min n s.host.pending.length

/-- The stored key and IV words reach the host through the outputs of operations only: two runs that differ in them and in
the side records alone, and trigger no operation, give back the same results throughout (10_state.md R45). -/
def Obligations.KeyAndIvStaySecretWithoutATrigger : Prop :=
  ∀ n s t, StatesAgree SameButSecrets s t → TriggerFree s → OutcomesAgree SameButSecrets (runs n s) (runs n t)

/-- No transaction reads a side record: two runs that differ in them alone give back the same results throughout, operations
included (10_state.md R40, R45). -/
def Obligations.SideRecordsAreUnobservable : Prop :=
  ∀ n s t, StatesAgree SameButRecords s t → OutcomesAgree SameButRecords (runs n s) (runs n t)

/-- One char write and the corresponding word writes leave devices that differ only in the side record, for the key, the IV
and the input, and for payloads of every length (46_char_access.md R272). -/
def Obligations.CharPathEqualsTheWordPath : Prop :=
  ∀ s p, s.dev.fsm = .idle → s.host.pending = [] →
    (∃ t u, runs 1 (issue [encode s.in3 (.wrcKey p)] s) = .next t ∧
      runs 8 (issue ((List.finRange 8).map fun i => encode s.in3 (.wrKey i (payloadWord p i.val))) s) = .next u ∧
      t.dev = { u.dev with recKey := p } ∧ u.dev.recKey = s.dev.recKey) ∧
    (∃ t u, runs 1 (issue [encode s.in3 (.wrcIv p)] s) = .next t ∧
      runs 4 (issue ((List.finRange 4).map fun i => encode s.in3 (.wrIv i (payloadWord p i.val))) s) = .next u ∧
      t.dev = { u.dev with recIv := p } ∧ u.dev.recIv = s.dev.recIv) ∧
    ∃ t u, runs 1 (issue [encode s.in3 (.wrcIn p)] s) = .next t ∧
      runs 4 (issue ((List.finRange 4).map fun i => encode s.in3 (.wrIn i (payloadWord p i.val))) s) = .next u ∧
      t.dev = { u.dev with recIn := p } ∧ u.dev.recIn = s.dev.recIn

/-- Whatever interleaving of several callers' sequences takes effect, it keeps each caller's own order, holds every
transaction of each, and the machine applies them all (20_memory.md R71; the relation is the model's form of the callers,
notes/assumptions/15.md). -/
def Obligations.InterleavedCallersAreAllServed : Prop :=
  ∀ qs as s, Interleaves qs as → (∀ q ∈ qs, ∀ a ∈ q, accessSize a = 4) → s.dev.fsm = .idle → s.host.pending = [] →
    (∀ q ∈ qs, List.Sublist q as) ∧ as.length = (qs.map List.length).sum ∧
    ∃ t, runs as.length (issue as s) = .next t ∧ t.host.pending = [] ∧ t.host.position = s.host.position + as.length

/-! ## The engine -/

/-- `BytesToWords` and `WordsToBytes` are inverse to each other, on word lists and on byte strings of a multiple of four
bytes (00_scope.md R17). -/
def Obligations.BytesAndWordsAreInverse : Prop :=
  (∀ ws, bytesToWords (wordsToBytes ws) = ws ∧ (wordsToBytes ws).length = 4 * ws.length) ∧
  ∀ b : List Byte, b.length % 4 = 0 → wordsToBytes (bytesToWords b) = b

/-- `GMul` is the field product: commutative, associative, distributive, with its corner cases (40_gf_sbox.md R112). -/
def Obligations.FieldProductLaws : Prop :=
  ∀ a b c : Byte, gmul a b = gmul b a ∧ gmul (gmul a b) c = gmul a (gmul b c) ∧
    gmul a (b ^^^ c) = gmul a b ^^^ gmul a c ∧ gmul a 0 = 0 ∧ gmul a 1 = a ∧ gmul a 2 = xtime a ∧
    gmul a 3 = xtime a ^^^ a

/-- `GInv` is the inverse, unique, 0 at 0; the S-box table is the affine transform of it, a permutation with no fixed point
and no opposite fixed point; the inverse table undoes it (R113, R114, R115). -/
def Obligations.FieldInverseAndSBoxes : Prop :=
  ginv 0 = 0 ∧
  (∀ a b : Byte, a ≠ 0 → (gmul a b = 1 ↔ b = ginv a)) ∧
  (∀ a : Byte, sbox a = sboxAffine a ∧ sbox a ≠ a ∧ sbox a ≠ a ^^^ 0xFF ∧ invSbox (sbox a) = a ∧ sbox (invSbox a) = a)

/-- The key schedule: 60 words, the key's own eight first, byte j of word i being byte 4i + j of the key, then the recurrence
of 41_key_schedule.md R132 (with R130 and R131), and the seven round constants of 40_gf_sbox.md R116, 0x01 and its doublings, which the spec supplies from FIPS-197
(notes/assumptions/12.md). -/
def Obligations.KeyScheduleRecurrence : Prop :=
  (rcon 1 = 0x01 ∧ (∀ j, 1 ≤ j → j < 7 → rcon (j + 1) = xtime (rcon j)) ∧
    [1, 2, 3, 4, 5, 6, 7].map rcon = [0x01, 0x02, 0x04, 0x08, 0x10, 0x20, 0x40]) ∧
  ∀ k, (keyExpansion k).length = 60 ∧
    (∀ i < 8, (keyExpansion k).getD i zeroQuad = (keyQuads k).getD i zeroQuad ∧
      ∀ j < 4, (quadBytes ((keyExpansion k).getD i zeroQuad)).getD j 0 = (keyBytes k).getD (4 * i + j) 0) ∧
    ∀ i, 8 ≤ i → i < 60 → ∀ t old : ByteQuad,
      (keyExpansion k).getD (i - 1) zeroQuad = t → (keyExpansion k).getD (i - 8) zeroQuad = old →
      (keyExpansion k).getD i zeroQuad =
        if i % 8 = 0 then
          ⟨old.b0 ^^^ (sbox t.b1 ^^^ rcon (i / 8)), old.b1 ^^^ sbox t.b2, old.b2 ^^^ sbox t.b3, old.b3 ^^^ sbox t.b0⟩
        else if i % 8 = 4 then
          ⟨old.b0 ^^^ sbox t.b0, old.b1 ^^^ sbox t.b1, old.b2 ^^^ sbox t.b2, old.b3 ^^^ sbox t.b3⟩
        else ⟨old.b0 ^^^ t.b0, old.b1 ^^^ t.b1, old.b2 ^^^ t.b2, old.b3 ^^^ t.b3⟩

/-- Where the bytes of a block go: byte r + 4c of the shifted block is byte r + 4((c + r) mod 4) of the block, and the
inverse shift takes it back from 4((c - r) mod 4); round key r's byte 4c + k is added to byte k + 4c (42_cipher.md R140,
R141, R144, R145; 41_key_schedule.md R133). The key addition is supplied from FIPS-197 (notes/assumptions/12.md); for round
numbers above 14 and lists shorter than a schedule it speaks of the model's totalising zero (notes/assumptions/13.md). -/
def Obligations.RowShiftsAndKeyAdditionOnBytes : Prop :=
  ∀ b w n, ∀ r < 4, ∀ c < 4,
    (blockBytes (shiftRows b)).getD (r + 4 * c) 0 = (blockBytes b).getD (r + 4 * ((c + r) % 4)) 0 ∧
    (blockBytes (invShiftRows b)).getD (r + 4 * c) 0 = (blockBytes b).getD (r + 4 * ((c + 4 - r) % 4)) 0 ∧
    (blockBytes (addRoundKey b w n)).getD (r + 4 * c) 0 =
      (blockBytes b).getD (r + 4 * c) 0 ^^^ (quadBytes (w.getD (4 * n + c) zeroQuad)).getD r 0

/-- Each round transform is undone by its inverse, on every state, AddRoundKey by itself, and columns of four equal bytes are
fixed by both mixings (42_cipher.md R141, R143, R145, R146, R147). -/
def Obligations.RoundTransformsHaveInverses : Prop :=
  ∀ s, invSubBytes (subBytes s) = s ∧ subBytes (invSubBytes s) = s ∧
    invShiftRows (shiftRows s) = s ∧ shiftRows (invShiftRows s) = s ∧
    invMixColumns (mixColumns s) = s ∧ mixColumns (invMixColumns s) = s ∧
    (∀ w r, addRoundKey (addRoundKey s w r) w r = s) ∧
    ∀ a : Byte, mixColumn ⟨a, a, a, a⟩ = ⟨a, a, a, a⟩ ∧ invMixColumn ⟨a, a, a, a⟩ = ⟨a, a, a, a⟩

/-- The rounds in their order: AddRoundKey(0), the rounds 1 to 13, and round 14 with MixColumns omitted; and the mirror of
it, AddRoundKey(14) and the rounds 13 downto 0 with InvMixColumns omitted at round 0 (42_cipher.md R148, R149). -/
def Obligations.CipherRoundsInOrder : Prop :=
  ∀ b w,
    (∃ s : Nat → Block, s 0 = addRoundKey b w 0 ∧
      (∀ r < 13, s (r + 1) = addRoundKey (mixColumns (shiftRows (subBytes (s r)))) w (r + 1)) ∧
      cipher b w = addRoundKey (shiftRows (subBytes (s 13))) w 14) ∧
    ∃ s : Nat → Block, s 14 = addRoundKey b w 14 ∧
      (∀ r < 14, r ≠ 0 → s r = invMixColumns (addRoundKey (invSubBytes (invShiftRows (s (r + 1)))) w r)) ∧
      s 0 = addRoundKey (invSubBytes (invShiftRows (s 1))) w 0 ∧ invCipher b w = s 0

/-- The inverse law of the block functions, for every block and every key (42_cipher.md R150). -/
def Obligations.CipherInverseLaw : Prop :=
  ∀ b k, invCipher (cipher b (keyExpansion k)) (keyExpansion k) = b ∧
    cipher (invCipher b (keyExpansion k)) (keyExpansion k) = b

/-- `CtrIncrement` is plus one on the 128-bit big-endian integer, wrapping at 2^128 (43_modes.md R173). -/
def Obligations.CounterIncrementIsPlusOne : Prop :=
  ∀ q, blockNumber (ctrIncrement q) = (blockNumber q + 1) % 2 ^ 128

/-- The four single-block drivers, with the IV or counter each leaves behind (43_modes.md R170, R171, R172, R174). -/
def Obligations.SingleBlockDrivers : Prop :=
  ∀ b v w,
    ecbBlock false b w = cipher b w ∧ ecbBlock true b w = invCipher b w ∧
    cbcEncryptBlock b v w = (cipher (blockXor b v) w, cipher (blockXor b v) w) ∧
    cbcDecryptBlock b v w = (blockXor (invCipher b w) v, b) ∧
    ctrBlock b v w = (blockXor b (cipher v w), ctrIncrement v)

/-- The dispatch of 43_modes.md R178, on whole 32-bit selectors: format 0 is ECB, 1 is CBC, every other value CTR, which
ignores the mode; mode 0 encrypts and every other value decrypts. -/
def Obligations.EngineSelectsTheDriver : Prop :=
  ∀ m f k v b,
    (f = 0 → m = 0 → engineRun m f k v b = cipher b (keyExpansion k)) ∧
    (f = 0 → m ≠ 0 → engineRun m f k v b = invCipher b (keyExpansion k)) ∧
    (f = 1 → m = 0 → engineRun m f k v b = cipher (blockXor b v) (keyExpansion k)) ∧
    (f = 1 → m ≠ 0 → engineRun m f k v b = blockXor (invCipher b (keyExpansion k)) v) ∧
    (f ≠ 0 → f ≠ 1 → engineRun m f k v b = blockXor b (cipher v (keyExpansion k)))

/-- The round-trip laws of 43_modes.md R179: ECB and CBC decryption undo encryption, and CTR undoes itself in either mode. -/
def Obligations.EngineRoundTrips : Prop :=
  ∀ k v b, engineRun 1 0 k v (engineRun 0 0 k v b) = b ∧ engineRun 1 1 k v (engineRun 0 1 k v b) = b ∧
    ∀ m m', engineRun m' 2 k v (engineRun m 2 k v b) = b

/-- The same on the device, for every value of the format register: an encryption, its output written back as the input,
the mode set to any nonzero value, and a second trigger give the first input back, with the key and IV registers as they
stood (43_modes.md R178, R179; 44_device_operation.md R190, R193). -/
def Obligations.DeviceRoundTrip : Prop :=
  ∀ s v v' m, s.dev.mode = 0 → v ≠ 0 → v' ≠ 0 → m ≠ 0 →
    ∃ t u, exec (.wrStart v) s = .next t ∧
      exec (.wrStart v') { t with dev := { t.dev with inp := t.dev.out, mode := m } } = .next u ∧
      u.dev.out = s.dev.inp ∧ u.dev.key = s.dev.key ∧ u.dev.iv = s.dev.iv

/-- The multi-block ECB and CBC drivers: a length that is not a multiple of 16 is refused; otherwise block j of the output is
the single-block driver's on block j, in CBC with the IV threaded through the blocks in order and the last one given back;
and decryption undoes encryption and leaves the same final IV (43_modes.md R175, R176; a refused length answers none,
notes/assumptions/16.md). -/
def Obligations.EcbAndCbcBuffersInvert : Prop :=
  ∀ (d : List Byte) v,
    (d.length % 16 ≠ 0 → ∀ w,
      (∀ dec, ecbBuffer dec d w = none) ∧ cbcEncryptBuffer d v w = none ∧ cbcDecryptBuffer d v w = none) ∧
    (d.length % 16 = 0 →
      (∀ w,
        (∀ dec, ∃ e, ecbBuffer dec d w = some e ∧ e.length = d.length ∧
          ∀ j < d.length / 16, bufferBlock e j = ecbBlock dec (bufferBlock d j) w) ∧
        (∃ e, ∃ u : Nat → Block, cbcEncryptBuffer d v w = some (e, u (d.length / 16)) ∧ e.length = d.length ∧ u 0 = v ∧
          ∀ j < d.length / 16, (bufferBlock e j, u (j + 1)) = cbcEncryptBlock (bufferBlock d j) (u j) w) ∧
        ∃ e, ∃ u : Nat → Block, cbcDecryptBuffer d v w = some (e, u (d.length / 16)) ∧ e.length = d.length ∧ u 0 = v ∧
          ∀ j < d.length / 16, (bufferBlock e j, u (j + 1)) = cbcDecryptBlock (bufferBlock d j) (u j) w) ∧
      ∀ k,
        (∃ e, ecbBuffer false d (keyExpansion k) = some e ∧ ecbBuffer true e (keyExpansion k) = some d) ∧
        ∃ e v', cbcEncryptBuffer d v (keyExpansion k) = some (e, v') ∧
          cbcDecryptBuffer e v (keyExpansion k) = some (d, v'))

/-- The CTR driver on a buffer of any length: byte i is the data byte plus byte i mod 16 of the keystream block of the
counter after i / 16 increments, and the counter ends one increment beyond each block begun (43_modes.md R177). -/
def Obligations.CtrBufferKeystream : Prop :=
  ∀ (d : List Byte) q w,
    (ctrBuffer d q w).1.length = d.length ∧
    (∀ i < d.length, (ctrBuffer d q w).1.getD i 0 =
      d.getD i 0 ^^^ (blockBytes (cipher (counterAfter (i / 16) q) w)).getD (i % 16) 0) ∧
    (ctrBuffer d q w).2 = counterAfter ((d.length + 15) / 16) q

/-! ## What the byte functions are -/

/-- The two substitutions take every byte of a block through its table, and the two mixings multiply every column by the
matrix of their rule (42_cipher.md R140, R142, R143, R146, R147). The per-byte application and the matrices are supplied from
FIPS-197 (notes/assumptions/12.md). -/
def Obligations.SubstitutionsAndMixingsOnBytes : Prop :=
  ∀ s : Block,
    (∀ r < 4, ∀ c < 4,
      (blockBytes (subBytes s)).getD (r + 4 * c) 0 = sbox ((blockBytes s).getD (r + 4 * c) 0) ∧
      (blockBytes (invSubBytes s)).getD (r + 4 * c) 0 = invSbox ((blockBytes s).getD (r + 4 * c) 0)) ∧
    ∀ c < 4, ∀ a0 a1 a2 a3 : Byte,
      (blockBytes s).getD (4 * c) 0 = a0 → (blockBytes s).getD (4 * c + 1) 0 = a1 →
      (blockBytes s).getD (4 * c + 2) 0 = a2 → (blockBytes s).getD (4 * c + 3) 0 = a3 →
      (blockBytes (mixColumns s)).getD (4 * c) 0 = gmul a0 0x02 ^^^ gmul a1 0x03 ^^^ a2 ^^^ a3 ∧
      (blockBytes (mixColumns s)).getD (4 * c + 1) 0 = a0 ^^^ gmul a1 0x02 ^^^ gmul a2 0x03 ^^^ a3 ∧
      (blockBytes (mixColumns s)).getD (4 * c + 2) 0 = a0 ^^^ a1 ^^^ gmul a2 0x02 ^^^ gmul a3 0x03 ∧
      (blockBytes (mixColumns s)).getD (4 * c + 3) 0 = gmul a0 0x03 ^^^ a1 ^^^ a2 ^^^ gmul a3 0x02 ∧
      (blockBytes (invMixColumns s)).getD (4 * c) 0 = gmul a0 0x0E ^^^ gmul a1 0x0B ^^^ gmul a2 0x0D ^^^ gmul a3 0x09 ∧
      (blockBytes (invMixColumns s)).getD (4 * c + 1) 0 = gmul a0 0x09 ^^^ gmul a1 0x0E ^^^ gmul a2 0x0B ^^^ gmul a3 0x0D ∧
      (blockBytes (invMixColumns s)).getD (4 * c + 2) 0 = gmul a0 0x0D ^^^ gmul a1 0x09 ^^^ gmul a2 0x0E ^^^ gmul a3 0x0B ∧
      (blockBytes (invMixColumns s)).getD (4 * c + 3) 0 = gmul a0 0x0B ^^^ gmul a1 0x0D ^^^ gmul a2 0x09 ^^^ gmul a3 0x0E

/-- `xtime` as a number: twice the byte, reduced by 0x11B where it has a ninth bit; and the S-box bit by bit, the affine map of
the field inverse with the constant 0x63 (40_gf_sbox.md R110, R111, R114). The polynomial and the construction are supplied from
FIPS-197 (notes/assumptions/12.md). -/
def Obligations.DoublingAndSBoxBits : Prop :=
  (∀ a : Byte, (xtime a).toNat = if a.toNat < 128 then 2 * a.toNat else (2 * a.toNat) ^^^ 0x11B) ∧
  ∀ a : Byte, ∀ i < 8, (sbox a).getLsbD i =
    ((ginv a).getLsbD i ^^ (ginv a).getLsbD ((i + 7) % 8) ^^ (ginv a).getLsbD ((i + 6) % 8) ^^
      (ginv a).getLsbD ((i + 5) % 8) ^^ (ginv a).getLsbD ((i + 4) % 8) ^^ (0x63#8).getLsbD i)

/-- The byte order as numbers: byte j of a word has the weight 256^j, four bytes make their word, the words of a block and of
a payload are its bytes four by four, a payload reading as zero beyond its end; block j of a buffer is its bytes 16j to
16j + 15; and blocks are added byte by byte (00_scope.md R11, R12, R17; 20_memory.md R66, R67; 46_char_access.md R260). The
little-endian order and the zero-fill are the spec's decisions D2 and D11 (notes/assumptions/11.md); a block of a buffer that
ends within it speaks of the model's totalising zero (notes/assumptions/13.md). -/
def Obligations.ByteOrderAsNumbers : Prop :=
  (∀ (x : Word), ∀ j < 4, (byteOf x j).toNat = x.toNat / 256 ^ j % 256) ∧
  (∀ b0 b1 b2 b3 : Byte,
    (wordLE b0 b1 b2 b3).toNat = b0.toNat + 256 * b1.toNat + 65536 * b2.toNat + 16777216 * b3.toNat) ∧
  (∀ (b : Block) (i : Fin 4), ∀ j < 4,
    byteOf ((wordsOfBlock b).get i) j = (blockBytes b).getD (4 * i.val + j) 0) ∧
  (∀ (p : List Byte) (i : Nat), ∀ j < 4,
    byteOf (payloadWord p i) j = payloadByte p (4 * i + j) ∧ payloadByte p (4 * i + j) = p.getD (4 * i + j) 0) ∧
  (∀ (d : List Byte) (j : Nat), ∀ i < 16, (blockBytes (bufferBlock d j)).getD i 0 = d.getD (16 * j + i) 0) ∧
  ∀ a b : Block, ∀ i < 16,
    (blockBytes (blockXor a b)).getD i 0 = (blockBytes a).getD i 0 ^^^ (blockBytes b).getD i 0
end

