-- ==== Sys2Proof/Laws/Bytes.lean ====
section
/-! SUPPORT. The byte order: a word is its four bytes, four bytes are their word, and so for blocks. -/

namespace Sys2Proof.Machine

@[simp] theorem wordOfQuad_quadOfWord (w : Word) : wordOfQuad (quadOfWord w) = w := by
  unfold wordOfQuad quadOfWord wordLE byteOf
  ext i hi
  simp only [BitVec.getElem_or, BitVec.getElem_shiftLeft, BitVec.getElem_setWidth, BitVec.getLsbD_extractLsb']
  rcases Nat.lt_or_ge i 8 with h | h
  · simp [h, show i < 16 by omega, show i < 24 by omega, BitVec.getLsbD_eq_getElem hi]
  rcases Nat.lt_or_ge i 16 with h2 | h2
  · simp [show ¬ i < 8 by omega, h2, show i < 24 by omega, show i - 8 < 8 by omega, show 8 + (i - 8) = i by omega,
      BitVec.getLsbD_eq_getElem hi]
  rcases Nat.lt_or_ge i 24 with h3 | h3
  · simp [show ¬ i < 8 by omega, show ¬ i < 16 by omega, h3, show ¬ i - 8 < 8 by omega, show i - 16 < 8 by omega,
      show 16 + (i - 16) = i by omega, BitVec.getLsbD_eq_getElem hi]
  · simp [show ¬ i < 8 by omega, show ¬ i < 16 by omega, show ¬ i < 24 by omega, show ¬ i - 8 < 8 by omega,
      show ¬ i - 16 < 8 by omega, show i - 24 < 8 by omega, show 24 + (i - 24) = i by omega,
      BitVec.getLsbD_eq_getElem hi]

theorem byteOf_wordLE (b0 b1 b2 b3 : Byte) :
    byteOf (wordLE b0 b1 b2 b3) 0 = b0 ∧ byteOf (wordLE b0 b1 b2 b3) 1 = b1 ∧
      byteOf (wordLE b0 b1 b2 b3) 2 = b2 ∧ byteOf (wordLE b0 b1 b2 b3) 3 = b3 := by
  unfold byteOf wordLE
  refine ⟨?_, ?_, ?_, ?_⟩ <;> ext i hi <;> simp only [BitVec.getElem_extractLsb', BitVec.getLsbD_or,
    BitVec.getLsbD_shiftLeft, BitVec.getLsbD_setWidth]
  · simp [hi, BitVec.getLsbD_eq_getElem, show i < 32 by omega, show i < 16 by omega, show i < 24 by omega]
  · simp [hi, BitVec.getLsbD_eq_getElem, BitVec.getLsbD_of_ge, show i < 32 by omega, show 8 + i < 32 by omega, show 8 + i < 16 by omega,
      show 8 + i < 24 by omega]
  · simp [hi, BitVec.getLsbD_eq_getElem, BitVec.getLsbD_of_ge, show 16 + i < 32 by omega, show 16 + i < 24 by omega,
      show 8 ≤ 16 + i by omega, show i < 32 by omega, show 8 ≤ 16 + i - 8 by omega]
  · simp [hi, BitVec.getLsbD_eq_getElem, BitVec.getLsbD_of_ge, show 24 + i < 32 by omega,
      show 8 ≤ 24 + i by omega, show i < 32 by omega, show 8 ≤ 24 + i - 8 by omega, show 8 ≤ 24 + i - 16 by omega]

@[simp] theorem quadOfWord_wordOfQuad (q : ByteQuad) : quadOfWord (wordOfQuad q) = q := by
  obtain ⟨h0, h1, h2, h3⟩ := byteOf_wordLE q.b0 q.b1 q.b2 q.b3
  simp [quadOfWord, wordOfQuad, h0, h1, h2, h3]

/-- The output words hold the block: the order of 20_memory.md R66 read back. -/
@[simp] theorem blockOfWords_wordsOfBlock (b : Block) : blockOfWords (wordsOfBlock b) = b := by
  simp [blockOfWords, wordsOfBlock, Vector.get_eq_getElem]

theorem quadXor_self_right (p q : ByteQuad) : quadXor (quadXor p q) q = p := by
  simp [quadXor]

/-- Exclusive-or with a block undoes itself. -/
@[simp] theorem blockXor_self_right (a b : Block) : blockXor (blockXor a b) b = a := by
  simp [blockXor, quadXor_self_right]

/-- Two states are equal when all their elements are. -/
theorem block_ext_stateAt {a b : Block} (h : ∀ r c, stateAt a r c = stateAt b r c) : a = b := by
  obtain ⟨⟨a00, a10, a20, a30⟩, ⟨a01, a11, a21, a31⟩, ⟨a02, a12, a22, a32⟩, ⟨a03, a13, a23, a33⟩⟩ := a
  obtain ⟨⟨b00, b10, b20, b30⟩, ⟨b01, b11, b21, b31⟩, ⟨b02, b12, b22, b32⟩, ⟨b03, b13, b23, b33⟩⟩ := b
  obtain ⟨rfl, rfl, rfl, rfl, rfl, rfl, rfl, rfl, rfl, rfl, rfl, rfl, rfl, rfl, rfl, rfl⟩ :
      a00 = b00 ∧ a10 = b10 ∧ a20 = b20 ∧ a30 = b30 ∧ a01 = b01 ∧ a11 = b11 ∧ a21 = b21 ∧ a31 = b31 ∧
      a02 = b02 ∧ a12 = b12 ∧ a22 = b22 ∧ a32 = b32 ∧ a03 = b03 ∧ a13 = b13 ∧ a23 = b23 ∧ a33 = b33 :=
    ⟨h 0 0, h 1 0, h 2 0, h 3 0, h 0 1, h 1 1, h 2 1, h 3 1, h 0 2, h 1 2, h 2 2, h 3 2, h 0 3, h 1 3, h 2 3, h 3 3⟩
  rfl

@[simp] theorem stateAt_stateOf (f : Fin 4 → Fin 4 → Byte) (r c : Fin 4) : stateAt (stateOf f) r c = f r c := by
  fin_cases r <;> fin_cases c <;> rfl

end Sys2Proof.Machine
end

