-- ==== Sys2Proof/Laws/Decode.lean ====
section
/-! SUPPORT. The fields of a descriptor, and where the register map puts each register. -/

namespace Sys2Proof

@[simp] theorem descriptorOff_mkDescriptor (dir view : Bool) (off : Offset) :
    descriptorOff (mkDescriptor dir view off) = off := by
  unfold descriptorOff mkDescriptor
  ext i hi
  have h33 : i < 33 := by omega
  simp only [BitVec.getElem_extractLsb', BitVec.getLsbD_or, BitVec.getLsbD_shiftLeft, BitVec.getLsbD_setWidth]
  have h34 : i < 34 := by omega
  simp [hi, h33, h34]

@[simp] theorem descriptorView_mkDescriptor (dir view : Bool) (off : Offset) :
    descriptorView (mkDescriptor dir view off) = view := by
  simp [descriptorView, mkDescriptor]

@[simp] theorem descriptorDir_mkDescriptor (dir view : Bool) (off : Offset) :
    descriptorDir (mkDescriptor dir view off) = dir := by
  simp [descriptorDir, mkDescriptor]

/-- No bit of a descriptor stands outside its three fields (30_encoding.md R91). -/
theorem mkDescriptor_fields (t : Descriptor) :
    mkDescriptor (descriptorDir t) (descriptorView t) (descriptorOff t) = t := by
  unfold mkDescriptor descriptorDir descriptorView descriptorOff
  ext i hi
  rcases Nat.lt_or_ge i 32 with h | h
  · have h33 : i < 33 := by omega
    simp [h, h33, BitVec.getLsbD_eq_getElem hi]
  · obtain rfl | rfl : i = 32 ∨ i = 33 := by omega
    · simp
    · simp

/-- The map holds every word register at the offset the encoder gives it. -/
theorem regAt_regOffset (m : In3Offset) (r : Reg) : regAt m (regOffset m r) = some (.word r) := by
  cases m <;> cases r with
  | id => decide
  | mode => decide
  | format => decide
  | start => decide
  | valid => decide
  | key i => revert i; decide
  | iv i => revert i; decide
  | inp i => revert i; decide
  | out i => revert i; decide

/-- The map holds every char register at its offset. -/
theorem regAt_charOffset (m : In3Offset) (c : CharReg) : regAt m (charOffset c) = some (.char c) := by
  cases m <;> cases c <;> decide

/-- The four kinds of access of 30_encoding.md R90, each with its own part of the decode function. -/
theorem decode_memRead (m : In3Offset) (off : Offset) :
    decode m (.memRead off 4) = .ok (decodeWordRead m off) := by
  simp [decode, accessSize, accessDescriptor, decodeDescriptor]

theorem decode_memWrite (m : In3Offset) (off : Offset) (v : Word) :
    decode m (.memWrite off 4 v) = .ok (decodeWordWrite m off v) := by
  simp [decode, accessSize, accessDescriptor, decodeDescriptor, accessValue]

theorem decode_charRead (m : In3Offset) (off : Offset) :
    decode m (.charRead off) = .ok (decodeCharRead m off) := by
  simp [decode, accessSize, accessDescriptor, decodeDescriptor]

theorem decode_charWrite (m : In3Offset) (off : Offset) (p : List Byte) :
    decode m (.charWrite off p) = .ok (decodeCharWrite m off p) := by
  simp [decode, accessSize, accessDescriptor, decodeDescriptor, accessPayload]

/-- A descriptor stands for an access the interface has (30_encoding.md R91). -/
@[simp] theorem accessSize_accessOfDescriptor (t : Descriptor) (v : Word) (p : List Byte) :
    accessSize (accessOfDescriptor t v p) = 4 := by
  unfold accessOfDescriptor; split <;> rfl

/-- The access of a descriptor has that descriptor. -/
@[simp] theorem accessDescriptor_accessOfDescriptor (t : Descriptor) (v : Word) (p : List Byte) :
    accessDescriptor (accessOfDescriptor t v p) = t := by
  unfold accessOfDescriptor
  have := mkDescriptor_fields t
  split <;> simp_all [accessDescriptor]

/-- What a descriptor decodes to, by its direction and view (30_encoding.md R93). -/
theorem decode_wordRead_descriptor (m : In3Offset) {t : Descriptor} (off : Offset) (v : Word) (p : List Byte)
    (h : t = mkDescriptor false false off) : decode m (accessOfDescriptor t v p) = .ok (decodeWordRead m off) := by
  subst h; simp [accessOfDescriptor, decode_memRead]

theorem decode_wordWrite_descriptor (m : In3Offset) {t : Descriptor} (off : Offset) (v : Word) (p : List Byte)
    (h : t = mkDescriptor true false off) : decode m (accessOfDescriptor t v p) = .ok (decodeWordWrite m off v) := by
  subst h; simp [accessOfDescriptor, decode_memWrite]

theorem decode_charRead_descriptor (m : In3Offset) {t : Descriptor} (off : Offset) (v : Word) (p : List Byte)
    (h : t = mkDescriptor false true off) : decode m (accessOfDescriptor t v p) = .ok (decodeCharRead m off) := by
  subst h; simp [accessOfDescriptor, decode_charRead]

theorem decode_charWrite_descriptor (m : In3Offset) {t : Descriptor} (off : Offset) (v : Word) (p : List Byte)
    (h : t = mkDescriptor true true off) : decode m (accessOfDescriptor t v p) = .ok (decodeCharWrite m off p) := by
  subst h; simp [accessOfDescriptor, decode_charWrite]

/-- What a word access at a register's offset decodes to (R93). -/
theorem decodeWordRead_regOffset (m : In3Offset) (r : Reg) :
    decodeWordRead m (regOffset m r) = match r with
      | .id => .rdId
      | .mode => .rdMode
      | .format => .rdFormat
      | .start => .rdStart
      | .valid => .rdValid
      | .key i => .rdKey i
      | .iv i => .rdIv i
      | .inp i => .rdIn i
      | .out i => .rdOut i := by
  unfold decodeWordRead; rw [regAt_regOffset]; cases r <;> rfl

theorem decodeWordWrite_regOffset (m : In3Offset) (r : Reg) (v : Word) :
    decodeWordWrite m (regOffset m r) v = match r with
      | .id => .wrId v
      | .mode => .wrMode v
      | .format => .wrFormat v
      | .start => .wrStart v
      | .valid => .wrValid v
      | .key i => .wrKey i v
      | .iv i => .wrIv i v
      | .inp i => .wrIn i v
      | .out i => .wrOut i v := by
  unfold decodeWordWrite; rw [regAt_regOffset]; cases r <;> rfl

end Sys2Proof
end

