-- ==== Sys2Proof/Laws/Engine.lean ====
section
/-! SUPPORT. The field and the round transforms: what the multiplication does to sums, the S-boxes as inverse tables, and
each round transform under its inverse. -/

namespace Sys2Proof.Machine

/-- The reduction of `xtime` is taken on bit 7 (40_gf_sbox.md R110). -/
theorem xtime_eq (a : Byte) : xtime a = (a <<< 1) ^^^ (if a.getLsbD 7 then 0x1B else 0x00) := by
  revert a; decide +kernel

/-- Doubling distributes over addition (40_gf_sbox.md R110). -/
theorem xtime_xor (a b : Byte) : xtime (a ^^^ b) = xtime a ^^^ xtime b := by
  simp only [xtime_eq, BitVec.shiftLeft_xor_distrib, BitVec.getLsbD_xor]
  cases a.getLsbD 7 <;> cases b.getLsbD 7 <;> simp
  · rw [BitVec.xor_assoc]
  · rw [BitVec.xor_assoc, BitVec.xor_assoc, BitVec.xor_comm (b <<< 1)]
  · rw [BitVec.xor_assoc, BitVec.xor_comm 27#8, BitVec.xor_assoc]; simp

/-- The loop of the product keeps sums: in the first operand and the sum so far together (R112). -/
theorem gmulFrom_xor (n k : Nat) (a a' b p p' : Byte) :
    gmulFrom n k (a ^^^ a') b (p ^^^ p') = gmulFrom n k a b p ^^^ gmulFrom n k a' b p' := by
  induction n generalizing k a a' p p' with
  | zero => rfl
  | succ n ih =>
    rw [gmulFrom, gmulFrom, gmulFrom, xtime_xor]
    have : (if b.getLsbD k then p ^^^ p' ^^^ (a ^^^ a') else p ^^^ p') =
        (if b.getLsbD k then p ^^^ a else p) ^^^ (if b.getLsbD k then p' ^^^ a' else p') := by
      split
      · rw [BitVec.xor_assoc, ← BitVec.xor_assoc p' a a', BitVec.xor_comm p' a, BitVec.xor_assoc, BitVec.xor_assoc]
      · rfl
    rw [this, ih]

/-- The product distributes over addition in its first operand (R112). -/
theorem gmul_xor (a a' b : Byte) : gmul (a ^^^ a') b = gmul a b ^^^ gmul a' b := by
  have := gmulFrom_xor 8 0 a a' b 0 0
  simpa [gmul] using this

/-- The S-boxes are inverse to each other (R115). -/
theorem invSbox_sbox (a : Byte) : invSbox (sbox a) = a := by revert a; decide +kernel

theorem sbox_invSbox (a : Byte) : sbox (invSbox a) = a := by revert a; decide +kernel

@[simp] theorem addRoundKey_twice (s : Block) (w : List ByteQuad) (r : Nat) :
    addRoundKey (addRoundKey s w r) w r = s :=
  block_ext_stateAt fun k c => by simp [addRoundKey]

end Sys2Proof.Machine
end

