-- ==== Sys2Proof/Laws/PerInstr.lean ====
section
/-! SUPPORT. One family of laws about the instructions as syntax: the kind of access an instruction is encoded as
(30_encoding.md R90, R91). -/

namespace Sys2Proof.Laws.EncodedKind

/-- The direction bit and the view bit of each operation: `WR`/`WRC` against `RD`/`RDC`, and the C of the char view (R93). -/
def bits : Instr → Bool × Bool
  | .rdId => (false, false)
  | .wrId _ => (true, false)
  | .rdMode => (false, false)
  | .wrMode _ => (true, false)
  | .rdFormat => (false, false)
  | .wrFormat _ => (true, false)
  | .rdStart => (false, false)
  | .wrStart _ => (true, false)
  | .rdValid => (false, false)
  | .wrValid _ => (true, false)
  | .rdKey _ => (false, false)
  | .wrKey _ _ => (true, false)
  | .rdIv _ => (false, false)
  | .wrIv _ _ => (true, false)
  | .rdIn _ => (false, false)
  | .wrIn _ _ => (true, false)
  | .rdOut _ => (false, false)
  | .wrOut _ _ => (true, false)
  | .rdCharw _ => (false, false)
  | .wrCharw _ _ => (true, false)
  | .rdInvalid _ => (false, false)
  | .wrInvalid _ _ => (true, false)
  | .rdcKey => (false, true)
  | .wrcKey _ => (true, true)
  | .rdcIv => (false, true)
  | .wrcIv _ => (true, true)
  | .rdcIn => (false, true)
  | .wrcIn _ => (true, true)
  | .rdcOut => (false, true)
  | .wrcOut _ => (true, true)
  | .rdcInvalid _ => (false, true)
  | .wrcInvalid _ _ => (true, true)

/-- The encoding of `i`, on either map, is a four-byte or char access whose descriptor carries the two bits of `i`. -/
def Statement (i : Instr) : Prop :=
  ∀ m, accessSize (encode m i) = 4 ∧ descriptorDir (encodeDescriptor m i) = (bits i).1 ∧
    descriptorView (encodeDescriptor m i) = (bits i).2

theorem rdId : Statement .rdId := fun _ =>
  ⟨rfl, descriptorDir_mkDescriptor _ _ _, descriptorView_mkDescriptor _ _ _⟩
theorem wrId (v : Word) : Statement (.wrId v) := fun _ =>
  ⟨rfl, descriptorDir_mkDescriptor _ _ _, descriptorView_mkDescriptor _ _ _⟩
theorem rdMode : Statement .rdMode := fun _ =>
  ⟨rfl, descriptorDir_mkDescriptor _ _ _, descriptorView_mkDescriptor _ _ _⟩
theorem wrMode (v : Word) : Statement (.wrMode v) := fun _ =>
  ⟨rfl, descriptorDir_mkDescriptor _ _ _, descriptorView_mkDescriptor _ _ _⟩
theorem rdFormat : Statement .rdFormat := fun _ =>
  ⟨rfl, descriptorDir_mkDescriptor _ _ _, descriptorView_mkDescriptor _ _ _⟩
theorem wrFormat (v : Word) : Statement (.wrFormat v) := fun _ =>
  ⟨rfl, descriptorDir_mkDescriptor _ _ _, descriptorView_mkDescriptor _ _ _⟩
theorem rdStart : Statement .rdStart := fun _ =>
  ⟨rfl, descriptorDir_mkDescriptor _ _ _, descriptorView_mkDescriptor _ _ _⟩
theorem wrStart (v : Word) : Statement (.wrStart v) := fun _ =>
  ⟨rfl, descriptorDir_mkDescriptor _ _ _, descriptorView_mkDescriptor _ _ _⟩
theorem rdValid : Statement .rdValid := fun _ =>
  ⟨rfl, descriptorDir_mkDescriptor _ _ _, descriptorView_mkDescriptor _ _ _⟩
theorem wrValid (v : Word) : Statement (.wrValid v) := fun _ =>
  ⟨rfl, descriptorDir_mkDescriptor _ _ _, descriptorView_mkDescriptor _ _ _⟩
theorem rdKey (i : Fin 8) : Statement (.rdKey i) := fun _ =>
  ⟨rfl, descriptorDir_mkDescriptor _ _ _, descriptorView_mkDescriptor _ _ _⟩
theorem wrKey (i : Fin 8) (v : Word) : Statement (.wrKey i v) := fun _ =>
  ⟨rfl, descriptorDir_mkDescriptor _ _ _, descriptorView_mkDescriptor _ _ _⟩
theorem rdIv (i : Fin 4) : Statement (.rdIv i) := fun _ =>
  ⟨rfl, descriptorDir_mkDescriptor _ _ _, descriptorView_mkDescriptor _ _ _⟩
theorem wrIv (i : Fin 4) (v : Word) : Statement (.wrIv i v) := fun _ =>
  ⟨rfl, descriptorDir_mkDescriptor _ _ _, descriptorView_mkDescriptor _ _ _⟩
theorem rdIn (i : Fin 4) : Statement (.rdIn i) := fun _ =>
  ⟨rfl, descriptorDir_mkDescriptor _ _ _, descriptorView_mkDescriptor _ _ _⟩
theorem wrIn (i : Fin 4) (v : Word) : Statement (.wrIn i v) := fun _ =>
  ⟨rfl, descriptorDir_mkDescriptor _ _ _, descriptorView_mkDescriptor _ _ _⟩
theorem rdOut (i : Fin 4) : Statement (.rdOut i) := fun _ =>
  ⟨rfl, descriptorDir_mkDescriptor _ _ _, descriptorView_mkDescriptor _ _ _⟩
theorem wrOut (i : Fin 4) (v : Word) : Statement (.wrOut i v) := fun _ =>
  ⟨rfl, descriptorDir_mkDescriptor _ _ _, descriptorView_mkDescriptor _ _ _⟩
theorem rdCharw (c : CharReg) : Statement (.rdCharw c) := fun _ =>
  ⟨rfl, descriptorDir_mkDescriptor _ _ _, descriptorView_mkDescriptor _ _ _⟩
theorem wrCharw (c : CharReg) (v : Word) : Statement (.wrCharw c v) := fun _ =>
  ⟨rfl, descriptorDir_mkDescriptor _ _ _, descriptorView_mkDescriptor _ _ _⟩
theorem rdInvalid (off : Offset) : Statement (.rdInvalid off) := fun _ =>
  ⟨rfl, descriptorDir_mkDescriptor _ _ _, descriptorView_mkDescriptor _ _ _⟩
theorem wrInvalid (off : Offset) (v : Word) : Statement (.wrInvalid off v) := fun _ =>
  ⟨rfl, descriptorDir_mkDescriptor _ _ _, descriptorView_mkDescriptor _ _ _⟩
theorem rdcKey : Statement .rdcKey := fun _ =>
  ⟨rfl, descriptorDir_mkDescriptor _ _ _, descriptorView_mkDescriptor _ _ _⟩
theorem wrcKey (p : List Byte) : Statement (.wrcKey p) := fun _ =>
  ⟨rfl, descriptorDir_mkDescriptor _ _ _, descriptorView_mkDescriptor _ _ _⟩
theorem rdcIv : Statement .rdcIv := fun _ =>
  ⟨rfl, descriptorDir_mkDescriptor _ _ _, descriptorView_mkDescriptor _ _ _⟩
theorem wrcIv (p : List Byte) : Statement (.wrcIv p) := fun _ =>
  ⟨rfl, descriptorDir_mkDescriptor _ _ _, descriptorView_mkDescriptor _ _ _⟩
theorem rdcIn : Statement .rdcIn := fun _ =>
  ⟨rfl, descriptorDir_mkDescriptor _ _ _, descriptorView_mkDescriptor _ _ _⟩
theorem wrcIn (p : List Byte) : Statement (.wrcIn p) := fun _ =>
  ⟨rfl, descriptorDir_mkDescriptor _ _ _, descriptorView_mkDescriptor _ _ _⟩
theorem rdcOut : Statement .rdcOut := fun _ =>
  ⟨rfl, descriptorDir_mkDescriptor _ _ _, descriptorView_mkDescriptor _ _ _⟩
theorem wrcOut (p : List Byte) : Statement (.wrcOut p) := fun _ =>
  ⟨rfl, descriptorDir_mkDescriptor _ _ _, descriptorView_mkDescriptor _ _ _⟩
theorem rdcInvalid (off : Offset) : Statement (.rdcInvalid off) := fun _ =>
  ⟨rfl, descriptorDir_mkDescriptor _ _ _, descriptorView_mkDescriptor _ _ _⟩
theorem wrcInvalid (off : Offset) (p : List Byte) : Statement (.wrcInvalid off p) := fun _ =>
  ⟨rfl, descriptorDir_mkDescriptor _ _ _, descriptorView_mkDescriptor _ _ _⟩

end Sys2Proof.Laws.EncodedKind
end

