-- ==== Sys2Proof/Laws/State.lean ====
section
/-! SUPPORT. One lemma for each field of the state under each shared operation, so that no proof unfolds a record update,
and the read-after-write laws of the register primitives. -/

namespace Sys2Proof.Machine

@[simp] theorem answer_dev (r : Result) (s : State) : (answer r s).dev = s.dev := rfl
@[simp] theorem answer_in3 (r : Result) (s : State) : (answer r s).in3 = s.in3 := rfl
@[simp] theorem answer_pending (r : Result) (s : State) : (answer r s).host.pending = s.host.pending := rfl
@[simp] theorem answer_position (r : Result) (s : State) : (answer r s).host.position = s.host.position := rfl
@[simp] theorem answer_result (r : Result) (s : State) : (answer r s).host.result = r := rfl
@[simp] theorem answer_event (r : Result) (s : State) : (answer r s).host.event = none := rfl

@[simp] theorem withDevice_dev (s : State) (d : Device) : (withDevice s d).dev = d := rfl
@[simp] theorem withDevice_in3 (s : State) (d : Device) : (withDevice s d).in3 = s.in3 := rfl
@[simp] theorem withDevice_host (s : State) (d : Device) : (withDevice s d).host = s.host := rfl

@[simp] theorem raiseEvent_dev (e : Event) (s : State) : (raiseEvent e s).dev = s.dev := rfl
@[simp] theorem raiseEvent_in3 (e : Event) (s : State) : (raiseEvent e s).in3 = s.in3 := rfl
@[simp] theorem raiseEvent_pending (e : Event) (s : State) : (raiseEvent e s).host.pending = s.host.pending := rfl
@[simp] theorem raiseEvent_position (e : Event) (s : State) : (raiseEvent e s).host.position = s.host.position := rfl
@[simp] theorem raiseEvent_result (e : Event) (s : State) : (raiseEvent e s).host.result = s.host.result := rfl
@[simp] theorem raiseEvent_event (e : Event) (s : State) : (raiseEvent e s).host.event = some e := rfl

@[simp] theorem raiseIfShort_dev (p : List Byte) (n : Nat) (s : State) : (raiseIfShort p n s).dev = s.dev := by
  unfold raiseIfShort; split <;> rfl
@[simp] theorem raiseIfShort_in3 (p : List Byte) (n : Nat) (s : State) : (raiseIfShort p n s).in3 = s.in3 := by
  unfold raiseIfShort; split <;> rfl
@[simp] theorem raiseIfShort_pending (p : List Byte) (n : Nat) (s : State) :
    (raiseIfShort p n s).host.pending = s.host.pending := by unfold raiseIfShort; split <;> rfl
@[simp] theorem raiseIfShort_position (p : List Byte) (n : Nat) (s : State) :
    (raiseIfShort p n s).host.position = s.host.position := by unfold raiseIfShort; split <;> rfl
@[simp] theorem raiseIfShort_result (p : List Byte) (n : Nat) (s : State) :
    (raiseIfShort p n s).host.result = s.host.result := by unfold raiseIfShort; split <;> rfl

@[simp] theorem raiseIfNoRegister_dev (off : Offset) (s : State) : (raiseIfNoRegister off s).dev = s.dev := by
  unfold raiseIfNoRegister; split <;> rfl
@[simp] theorem raiseIfNoRegister_in3 (off : Offset) (s : State) : (raiseIfNoRegister off s).in3 = s.in3 := by
  unfold raiseIfNoRegister; split <;> rfl
@[simp] theorem raiseIfNoRegister_pending (off : Offset) (s : State) :
    (raiseIfNoRegister off s).host.pending = s.host.pending := by unfold raiseIfNoRegister; split <;> rfl
@[simp] theorem raiseIfNoRegister_position (off : Offset) (s : State) :
    (raiseIfNoRegister off s).host.position = s.host.position := by unfold raiseIfNoRegister; split <;> rfl
@[simp] theorem raiseIfNoRegister_result (off : Offset) (s : State) :
    (raiseIfNoRegister off s).host.result = s.host.result := by unfold raiseIfNoRegister; split <;> rfl

@[simp] theorem takeTransaction_dev (l : List Access) (s : State) : (takeTransaction l s).dev = s.dev := rfl
@[simp] theorem takeTransaction_in3 (l : List Access) (s : State) : (takeTransaction l s).in3 = s.in3 := rfl
@[simp] theorem takeTransaction_pending (l : List Access) (s : State) : (takeTransaction l s).host.pending = l := rfl
@[simp] theorem takeTransaction_position (l : List Access) (s : State) :
    (takeTransaction l s).host.position = s.host.position + 1 := rfl
@[simp] theorem takeTransaction_result (l : List Access) (s : State) :
    (takeTransaction l s).host.result = s.host.result := rfl
@[simp] theorem takeTransaction_event (l : List Access) (s : State) :
    (takeTransaction l s).host.event = s.host.event := rfl

@[simp] theorem issueNext_dev (a : Access) (s : State) : (issueNext a s).dev = s.dev := rfl
@[simp] theorem issueNext_in3 (a : Access) (s : State) : (issueNext a s).in3 = s.in3 := rfl
@[simp] theorem issueNext_pending (a : Access) (s : State) : (issueNext a s).host.pending = a :: s.host.pending := rfl

@[simp] theorem issue_dev (l : List Access) (s : State) : (issue l s).dev = s.dev := rfl
@[simp] theorem issue_in3 (l : List Access) (s : State) : (issue l s).in3 = s.in3 := rfl
@[simp] theorem issue_pending (l : List Access) (s : State) : (issue l s).host.pending = s.host.pending ++ l := rfl
@[simp] theorem issue_position (l : List Access) (s : State) : (issue l s).host.position = s.host.position := rfl

/-- A register reads as it was last written (20_memory.md R71). -/
@[simp] theorem readReg_writeReg_same (d : Device) (r : Reg) (v : Word) : readReg (writeReg d r v) r = v := by
  cases r <;> simp [readReg, writeReg, Vector.get_eq_getElem]

/-- A write changes no other register: "A word transaction never touches two registers" (20_memory.md R68). -/
theorem readReg_writeReg_other (d : Device) (r q : Reg) (v : Word) (h : q ≠ r) :
    readReg (writeReg d r v) q = readReg d q := by
  have key : ∀ {n : Nat} (x : Vector Word n) (i j : Fin n), j ≠ i → (x.set i.val v i.isLt).get j = x.get j := by
    intro n x i j hij
    have : i.val ≠ j.val := fun e => hij (Fin.ext e.symm)
    simp [Vector.get_eq_getElem, this]
  cases r with
  | key i => cases q with
    | key j => exact key _ _ _ (by simpa using h)
    | _ => rfl
  | iv i => cases q with
    | iv j => exact key _ _ _ (by simpa using h)
    | _ => rfl
  | inp i => cases q with
    | inp j => exact key _ _ _ (by simpa using h)
    | _ => rfl
  | out i => cases q with
    | out j => exact key _ _ _ (by simpa using h)
    | _ => rfl
  | id => cases q <;> first | rfl | exact absurd rfl h
  | mode => cases q <;> first | rfl | exact absurd rfl h
  | format => cases q <;> first | rfl | exact absurd rfl h
  | start => cases q <;> first | rfl | exact absurd rfl h
  | valid => cases q <;> first | rfl | exact absurd rfl h

/-- Writing a register leaves the side records and `fsm` alone. -/
theorem writeReg_keeps_rest (d : Device) (r : Reg) (v : Word) :
    (writeReg d r v).recKey = d.recKey ∧ (writeReg d r v).recIv = d.recIv ∧ (writeReg d r v).recIn = d.recIn ∧
      (writeReg d r v).fsm = d.fsm := by
  cases r <;> simp [writeReg]

/-- Everything an operation does to the device (44_device_operation.md R190 to R193). -/
theorem doOperation_eq (d : Device) :
    doOperation d =
      { d with
        out := wordsOfBlock (engineRun d.mode d.format (keyOfWords d.key) (blockOfWords d.iv) (blockOfWords d.inp))
        fsm := .idle } := rfl

/-- Everything a write to `start` does to the device (45_word_access.md R217). -/
theorem writeStart_cases (d : Device) (v : Word) :
    (v = 0 ∧ writeStart d v = d) ∨ (v ≠ 0 ∧ writeStart d v = doOperation { d with start := v }) := by
  by_cases h : v = 0
  · left; simp [writeStart, triggers, h]
  · right
    have hv : (v != 0) = true := by simpa using h
    exact ⟨h, by simp only [writeStart, triggers, hv, if_true, writeReg]⟩

/-- The event of a payload checked against `4n` bytes (46_char_access.md R260). -/
theorem raiseIfShort_eq (p : List Byte) (n : Nat) (s : State) (h : s.host.event = none) :
    raiseIfShort p n s =
      { s with host := { s.host with event := if p.length < 4 * n then some (.malformedCharPayload p.length) else none } } := by
  unfold raiseIfShort isShortPayload raiseEvent
  by_cases hp : p.length < 4 * n
  · simp [hp]
  · simp [hp, ← h]

/-- The event of a char access at an offset that is no char register's (46_char_access.md R270). -/
theorem raiseIfNoRegister_eq (off : Offset) (s : State) (h : s.host.event = none) :
    raiseIfNoRegister off s =
      { s with host := { s.host with
          event := if noRegister s.in3 off then some (.invalidRegisterOffset off) else none } } := by
  unfold raiseIfNoRegister raiseEvent
  split
  · rfl
  · simp [← h]

end Sys2Proof.Machine
end

