-- ==== Sys2Proof/Laws/Step.lean ====
section
/-! SUPPORT. What a step can do, said once, and what every meaning has in common. -/

namespace Sys2Proof.Machine

/-- Every meaning answers a next state that keeps the parameter, the pending transactions and the position, and whose
device keeps `id`, keeps an idle `fsm` idle, and keeps the outputs unless the operation is a nonzero write to `start`. -/
theorem exec_next (i : Instr) (s : State) :
    ∃ t, exec i s = .next t ∧ t.in3 = s.in3 ∧ t.host.pending = s.host.pending ∧ t.host.position = s.host.position ∧
      t.dev.id = s.dev.id ∧ (s.dev.fsm = .idle → t.dev.fsm = .idle) := by
  have hstart : ∀ v, (writeStart s.dev v).id = s.dev.id ∧ (s.dev.fsm = .idle → (writeStart s.dev v).fsm = .idle) := by
    intro v
    rcases writeStart_cases s.dev v with ⟨-, h⟩ | ⟨-, h⟩ <;> simp [h, doOperation_eq]
  cases i with
  | wrStart v => exact ⟨_, rfl, rfl, rfl, rfl, (hstart v).1, (hstart v).2⟩
  | wrcKey p => exact ⟨_, rfl, by simp, by simp, by simp, by simp [loadKey], by simp [loadKey]⟩
  | wrcIv p => exact ⟨_, rfl, by simp, by simp, by simp, by simp [loadIv], by simp [loadIv]⟩
  | wrcIn p => exact ⟨_, rfl, by simp, by simp, by simp, by simp [loadIn], by simp [loadIn]⟩
  | rdcInvalid off => exact ⟨_, rfl, by simp, by simp, by simp, by simp, by simp⟩
  | wrcInvalid off p => exact ⟨_, rfl, by simp, by simp, by simp, by simp, by simp⟩
  | _ => exact ⟨_, rfl, rfl, rfl, rfl, rfl, id⟩

/-- What a step from an idle state does: nothing when no transaction is pending, else the head's operation, or the refusal
of a width the interface does not have. -/
theorem step_cases (s : State) (h : s.dev.fsm = .idle) :
    (s.host.pending = [] ∧ step s = .next s) ∨
    (∃ a rest i, s.host.pending = a :: rest ∧ decode s.in3 a = .ok i ∧ step s = exec i (takeTransaction rest s)) ∨
    (∃ a rest, s.host.pending = a :: rest ∧ accessSize a ≠ 4 ∧ step s = .refused (.unsupportedWidth (accessSize a))) := by
  cases hp : s.host.pending with
  | nil => left; exact ⟨rfl, by simp [step, h, hp]⟩
  | cons a rest =>
    right
    by_cases hw : accessSize a = 4
    · left
      refine ⟨a, rest, _, rfl, by simp only [decode, hw, if_true]; rfl, ?_⟩
      simp [step, h, hp, decode, hw]
    · right
      exact ⟨a, rest, rfl, hw, by simp [step, h, hp, decode, hw]⟩

open Sys2Proof.Safety

/-- A run of no steps stands still. -/
@[simp] theorem runs_zero (s : State) : runs 0 s = .next s := rfl

/-- A run of any machine goes on from the next state of its first step. -/
theorem run_next (M : Host.Core) (n : Nat) (s t : M.State) (h : M.step s = .next t) : M.run (n + 1) s = M.run n t := by
  simp only [Host.Core.run, h]

/-- A run of any machine ends where its first step is refused. -/
theorem run_refused (M : Host.Core) (n : Nat) (s : M.State) (r : M.Refusal) (h : M.step s = .refused r) :
    M.run (n + 1) s = .refused r := by
  simp only [Host.Core.run, h]

/-- The same of this machine. -/
theorem runs_succ_of_next {n : Nat} {s t : State} (h : step s = .next t) : runs (n + 1) s = runs n t :=
  run_next Sys2Proof.core n s t h

theorem runs_succ_of_refused {n : Nat} {s : State} {r : Refusal} (h : step s = .refused r) :
    runs (n + 1) s = .refused r :=
  run_refused Sys2Proof.core n s r h

/-- One transaction of a run: decoded, executed, and the rest of the run from there. -/
theorem runs_succ_of_exec {n : Nat} {s t : State} {a : Access} {rest : List Access} {i : Instr}
    (h : s.dev.fsm = .idle) (hp : s.host.pending = a :: rest) (hd : decode s.in3 a = .ok i)
    (he : exec i (takeTransaction rest s) = .next t) : runs (n + 1) s = runs n t :=
  runs_succ_of_next (by simp [step, h, hp, hd, he])

end Sys2Proof.Machine
end

