-- ==== Sys2Proof/Tests/Slice0.lean ====
section
/-! SUPPORT. The model's own tests: ill-formed terms, one descriptor written out for each operation, the vectors of
95_test_vectors.md, and a witness for the hypotheses of each statement. -/

namespace Sys2Proof.Tests

open Sys2Proof Sys2Proof.Machine Sys2Proof.Safety

/-! ## Helpers -/

/-- The `n` bytes of a number, most significant first: how the spec writes a byte string. -/
def bytesOf (n x : Nat) : List Byte := (List.range n).map fun k => BitVec.ofNat 8 (x / 256 ^ (n - 1 - k))

/-- The block the spec writes as 32 hex digits. -/
def blk (x : Nat) : Block := blockOfBytes (bytesOf 16 x)

/-- The key the spec writes as 64 hex digits. -/
def keyNum (x : Nat) : Key := ⟨blk (x / 256 ^ 16), blk x⟩

/-- The device after reset with storage zero, and the states built on it. -/
def dev0 : Device := Device.resetWith .zero

/-- A state with this device, one pending transaction, and the default map. -/
def stateWith (d : Device) (as : List Access) : State := ⟨d, .literal, ⟨as, 0, .nothing, none⟩⟩

/-- The device after one step, or nothing. -/
def devAfter (s : State) : Option Device :=
  match step s with
  | .next t => some t.dev
  | .fault _ => none
  | .refused _ => none

/-- What the host has after one step, or nothing. -/
def hostAfter (s : State) : Option HostPort :=
  match step s with
  | .next t => some t.host
  | .fault _ => none
  | .refused _ => none

/-- The four output words after one step. -/
def outAfter (s : State) : Option (Vector Word 4) := (devAfter s).map (·.out)

/-- The device after V-OP-1, as far as its outputs are concerned. -/
def devOp1 : Device :=
  { dev0 with start := 1, out := #v[0x78C095DC, 0x898940A2, 0x14A248AD, 0x87208492] }

/-! ## Well-formedness: each check refuses an ill-formed term -/

theorem test_wf_rdInvalid_of_a_mapped_offset : Instr.wf .literal (.rdInvalid 0x008) = false := by decide
theorem test_wf_wrInvalid_of_a_mapped_offset : Instr.wf .literal (.wrInvalid 0x100 5) = false := by decide
theorem test_wf_rdcInvalid_of_a_char_offset : Instr.wf .literal (.rdcInvalid 0x140) = false := by decide
theorem test_wf_wrcInvalid_of_a_char_offset : Instr.wf .uniform (.wrcInvalid 0x128 []) = false := by decide

/-! ## Decoding: the descriptor of each operation, written out from 30_encoding.md R91 and 20_memory.md R62 -/

theorem test_decode_RD_ID : decodeTableWord 40 0x000000000 = some .rdId := by decide
theorem test_decode_WR_ID : decodeTableWord 40 0x200000000 = some (.wrId 0) := by decide
theorem test_decode_RD_MODE : decodeTableWord 40 0x000000008 = some .rdMode := by decide
theorem test_decode_WR_MODE : decodeTableWord 40 0x200000008 = some (.wrMode 0) := by decide
theorem test_decode_RD_FORMAT : decodeTableWord 40 0x000000010 = some .rdFormat := by decide
theorem test_decode_WR_FORMAT : decodeTableWord 40 0x200000010 = some (.wrFormat 0) := by decide
theorem test_decode_RD_START : decodeTableWord 40 0x000000018 = some .rdStart := by decide
theorem test_decode_WR_START : decodeTableWord 40 0x200000018 = some (.wrStart 0) := by decide
theorem test_decode_RD_VALID : decodeTableWord 40 0x000000020 = some .rdValid := by decide
theorem test_decode_WR_VALID : decodeTableWord 40 0x200000020 = some (.wrValid 0) := by decide
theorem test_decode_RD_KEY : decodeTableWord 40 0x000000050 = some (.rdKey 5) := by decide
theorem test_decode_WR_KEY : decodeTableWord 40 0x200000060 = some (.wrKey 7 0) := by decide
theorem test_decode_RD_IV : decodeTableWord 40 0x000000068 = some (.rdIv 0) := by decide
theorem test_decode_WR_IV : decodeTableWord 40 0x200000080 = some (.wrIv 3 0) := by decide
theorem test_decode_RD_IN : decodeTableWord 40 0x000000100 = some (.rdIn 3) := by decide
theorem test_decode_WR_IN : decodeTableWord 40 0x200000088 = some (.wrIn 0 0) := by decide
theorem test_decode_RD_OUT : decodeTableWord 40 0x000000118 = some (.rdOut 2) := by decide
theorem test_decode_WR_OUT : decodeTableWord 40 0x200000108 = some (.wrOut 0 0) := by decide
theorem test_decode_RD_CHARW : decodeTableWord 40 0x000000140 = some (.rdCharw .outChar) := by decide
theorem test_decode_WR_CHARW : decodeTableWord 40 0x200000128 = some (.wrCharw .keyChar 0) := by decide
theorem test_decode_RD_INVALID : decodeTableWord 40 0x0000000A0 = some (.rdInvalid 0x0A0) := by decide
theorem test_decode_WR_INVALID : decodeTableWord 40 0x20000002C = some (.wrInvalid 0x02C 0) := by decide
theorem test_decode_RDC_KEY : decodeTableWord 40 0x100000128 = some .rdcKey := by decide
theorem test_decode_WRC_KEY : decodeTableWord 40 0x300000128 = some (.wrcKey []) := by decide
theorem test_decode_RDC_IV : decodeTableWord 40 0x100000130 = some .rdcIv := by decide
theorem test_decode_WRC_IV : decodeTableWord 40 0x300000130 = some (.wrcIv []) := by decide
theorem test_decode_RDC_IN : decodeTableWord 40 0x100000138 = some .rdcIn := by decide
theorem test_decode_WRC_IN : decodeTableWord 40 0x300000138 = some (.wrcIn []) := by decide
theorem test_decode_RDC_OUT : decodeTableWord 40 0x100000140 = some .rdcOut := by decide
theorem test_decode_WRC_OUT : decodeTableWord 40 0x300000140 = some (.wrcOut []) := by decide
theorem test_decode_RDC_INVALID : decodeTableWord 40 0x100000008 = some (.rdcInvalid 0x008) := by decide
theorem test_decode_WRC_INVALID : decodeTableWord 40 0x300000018 = some (.wrcInvalid 0x018 []) := by decide

/-- "every descriptor is 34 bits": a number above has no instruction (R91). -/
theorem test_decode_above_34_bits : decodeTableWord 40 0x400000000 = none := by decide

/-- No access of another width (20_memory.md R65). -/
theorem test_decode_other_width : decode .literal (.memRead 0x008 8) = .error (.unsupportedWidth 8) := rfl

/-- V-W-18: with `IN3_OFFSET = 0xA0` the offset 0x0A0 is `in_3` and 0x100 is invalid. -/
theorem test_decode_uniform_in3 : decode .uniform (.memRead 0x0A0 4) = .ok (.rdIn 3) ∧
    decode .uniform (.memRead 0x100 4) = .ok (.rdInvalid 0x100) := by decide

/-- A table word placed with withFetchWord is the next step, from reset. -/
theorem test_fetch_from_reset : hostAfter (State.reset.withFetchWord 40 0x0000000A0) =
    some ⟨[], 1, .word Config.sentinel, some (.invalidRegisterOffset 0x0A0)⟩ := rfl

/-! ## The engine: vectors of 95_test_vectors.md -/

theorem test_xtime_V_GF_1_to_5 : xtime 0x57 = 0xAE ∧ xtime 0xAE = 0x47 ∧ xtime 0x80 = 0x1B ∧ xtime 0xFF = 0xE5 ∧ xtime 0x00 = 0x00 := by decide
theorem test_gmul_V_GF_6_to_8 : gmul 0x57 0x13 = 0xFE ∧ gmul 0x57 0x83 = 0xC1 ∧ gmul 0x0E 0x8E = 0x15 := by decide
theorem test_ginv_V_GF_10_11 : ginv 0x53 = 0xCA ∧ ginv 0x00 = 0x00 ∧ ginv 0x01 = 0x01 := by decide
theorem test_sbox_V_SB_1 : sbox 0x00 = 0x63 ∧ sbox 0x01 = 0x7C ∧ sbox 0x10 = 0xCA ∧ sbox 0x53 = 0xED ∧ sbox 0xFF = 0x16 := by decide
theorem test_invSbox_V_SB_2 : invSbox 0x00 = 0x52 ∧ invSbox 0x63 = 0x00 ∧ invSbox 0x16 = 0xFF ∧ invSbox 0xED = 0x53 ∧ invSbox 0xFF = 0x7D := by decide
theorem test_rcon_V_SB_3 : [1, 2, 3, 4, 5, 6, 7].map rcon = [0x01, 0x02, 0x04, 0x08, 0x10, 0x20, 0x40] := by decide
theorem test_rotWord_subWord_V_KS_1_2 : rotWord ⟨0x09, 0xcf, 0x4f, 0x3c⟩ = ⟨0xcf, 0x4f, 0x3c, 0x09⟩ ∧
    subWord ⟨0xcf, 0x4f, 0x3c, 0x09⟩ = ⟨0x8a, 0x84, 0xeb, 0x01⟩ := by decide

/-- V-SRC-1, the words w[8]..w[59] of the published key, four to a number. -/
theorem test_keyExpansion_V_SRC_1 :
    (List.range 13).map (fun r =>
      roundKey (keyExpansion (keyNum 0x603deb1015ca71be2b73aef0857d77811f352c073b6108d72d9810a30914dff4)) (r + 2)) =
    ([0x9ba354118e6925afa51a8b5f2067fcde, 0xa8b09c1a93d194cdbe49846eb75d5b9a,
      0xd59aecb85bf3c917fee94248de8ebe96, 0xb5a9328a2678a647983122292f6c79b3,
      0x812c81addadf48ba24360af2fab8b464, 0x98c5bfc9bebd198e268c3ba709e04214] ++
     [0x68007bacb2df331696e939e46c518d80, 0xc814e20476a9fb8a5025c02d59c58239,
      0xde1369676ccc5a71fa2563959674ee15, 0x5886ca5d2e2f31d77e0af1fa27cf73c3,
      0x749c47ab18501ddae2757e4f7401905a, 0xcafaaae3e4d59b349adf6acebd10190d,
      0xfe4890d1e6188d0b046df344706c631e]).map blk := by decide

/-- V-KS-5, the last two round keys of the key 00..1f. -/
theorem test_roundKey_V_KS_5 :
    roundKey (keyExpansion (keyNum 0x000102030405060708090a0b0c0d0e0f101112131415161718191a1b1c1d1e1f)) 13 =
      blk 0x4e5a6699a9f24fe07e572baacdf8cdea ∧
    roundKey (keyExpansion (keyNum 0x000102030405060708090a0b0c0d0e0f101112131415161718191a1b1c1d1e1f)) 14 =
      blk 0x24fc79ccbf0979e9371ac23c6d68de36 := by decide

theorem test_shiftRows_V_RT_1_2 :
    shiftRows (blk 0x000102030405060708090a0b0c0d0e0f) = blk 0x00050a0f04090e03080d02070c01060b ∧
    invShiftRows (blk 0x000102030405060708090a0b0c0d0e0f) = blk 0x000d0a0704010e0b0805020f0c090603 := by decide

theorem test_mixColumns_V_RT_3_to_6 :
    mixColumn ⟨0xdb, 0x13, 0x53, 0x45⟩ = ⟨0x8e, 0x4d, 0xa1, 0xbc⟩ ∧
    mixColumn ⟨0xf2, 0x0a, 0x22, 0x5c⟩ = ⟨0x9f, 0xdc, 0x58, 0x9d⟩ ∧
    invMixColumn ⟨0x8e, 0x4d, 0xa1, 0xbc⟩ = ⟨0xdb, 0x13, 0x53, 0x45⟩ := by decide

/-- V-RT-7 and V-RT-8. -/
theorem test_subBytes_addRoundKey_V_RT_7_8 :
    subBytes (blk 0) = blk 0x63636363636363636363636363636363 ∧
    addRoundKey (blk 0x00112233445566778899aabbccddeeff) (keyQuads ⟨blk 0x000102030405060708090a0b0c0d0e0f, blk 0⟩) 0 =
      blk 0x00102030405060708090a0b0c0d0e0f0 := by decide

/-- V-CI-3 and V-CI-4, the example of FIPS-197 C.3, with the state after round 13. -/
theorem test_cipher_V_CI_3_4 :
    let w := keyExpansion (keyNum 0x000102030405060708090a0b0c0d0e0f101112131415161718191a1b1c1d1e1f)
    cipher (blk 0x00112233445566778899aabbccddeeff) w = blk 0x8ea2b7ca516745bfeafc49904b496089 ∧
    cipherRounds w 13 (blk 0x00102030405060708090a0b0c0d0e0f0) = blk 0x627bceb9999d5aaac945ecf423f56da5 ∧
    invCipher (blk 0x8ea2b7ca516745bfeafc49904b496089) w = blk 0x00112233445566778899aabbccddeeff := by decide +kernel

/-- V-CI-1 and V-CI-2. -/
theorem test_cipher_V_CI_1_2 :
    cipher (blk 0) (keyExpansion (keyNum 0)) = blk 0xdc95c078a2408989ad48a21492842087 ∧
    invCipher (blk 0) (keyExpansion (keyNum 0)) = blk 0x67671ce1fa91ddeb0f8fbbb366b531b4 := by decide +kernel

/-- V-MODE-1 to V-MODE-1d. -/
theorem test_ctrIncrement_V_MODE_1 :
    ctrIncrement (blk 0xffffffffffffffffffffffffffffffff) = blk 0 ∧
    ctrIncrement (blk 0xff) = blk 0x100 ∧ ctrIncrement (blk 0xffff) = blk 0x10000 ∧ ctrIncrement (blk 0) = blk 1 ∧
    ctrIncrement (blk 0xff00000000000000000000000000ffff) = blk 0xff000000000000000000000000010000 := by decide

/-- V-MODE-2a, V-MODE-3 and V-MODE-3a: the next IV or counter beside the output. -/
theorem test_blocks_V_MODE_2_3 :
    let w := keyExpansion (keyNum 0)
    cbcEncryptBlock (blk 0) (blk 0x000102030405060708090a0b0c0d0e0f) w =
      (blk 0xb65d30030c88b44c975a343f93fb3c09, blk 0xb65d30030c88b44c975a343f93fb3c09) ∧
    cbcDecryptBlock (blk 0) (blk 0) w = (blk 0x67671ce1fa91ddeb0f8fbbb366b531b4, blk 0) ∧
    ctrBlock (blk 0) (blk 0x000102030405060708090a0b0c0d0e0f) w =
      (blk 0xb65d30030c88b44c975a343f93fb3c09, blk 0x000102030405060708090a0b0c0d0e10) := by decide +kernel

/-- V-MODE-4, the first two blocks. -/
theorem test_ecbBuffer_V_MODE_4 :
    ecbBuffer false (bytesOf 32 0x6bc1bee22e409f96e93d7e117393172aae2d8a571e03ac9c9eb76fac45af8e51)
        (keyExpansion (keyNum 0x603deb1015ca71be2b73aef0857d77811f352c073b6108d72d9810a30914dff4)) =
      some (bytesOf 32 0xf3eed1bdb5d2a03c064b5a7e3db181f8591ccb10d410ed26dc5ba74a31362870) := by decide +kernel

/-- V-MODE-5 and V-MODE-5a, the first two blocks: the final IV is the last ciphertext block. -/
theorem test_cbcBuffer_V_MODE_5 :
    let w := keyExpansion (keyNum 0x603deb1015ca71be2b73aef0857d77811f352c073b6108d72d9810a30914dff4)
    let v := blk 0x000102030405060708090a0b0c0d0e0f
    let d := bytesOf 32 0x6bc1bee22e409f96e93d7e117393172aae2d8a571e03ac9c9eb76fac45af8e51
    let e := bytesOf 32 0xf58c4c04d6e5f1ba779eabfb5f7bfbd69cfc4e967edb808d679f777bc6702c7d
    cbcEncryptBuffer d v w = some (e, blk 0x9cfc4e967edb808d679f777bc6702c7d) ∧
    cbcDecryptBuffer e v w = some (d, blk 0x9cfc4e967edb808d679f777bc6702c7d) := by decide +kernel

/-- V-MODE-7: a partial last block, two keystream blocks. -/
theorem test_ctrBuffer_V_MODE_7 :
    ctrBuffer (bytesOf 20 0x6bc1bee22e409f96e93d7e117393172aae2d8a57) (blk 0xf0f1f2f3f4f5f6f7f8f9fafbfcfdfeff)
        (keyExpansion (keyNum 0x603deb1015ca71be2b73aef0857d77811f352c073b6108d72d9810a30914dff4)) =
      (bytesOf 20 0x601ec313775789a5b7a7f504bbf3d228f443e3ca, blk 0xf0f1f2f3f4f5f6f7f8f9fafbfcfdff01) := by
  decide +kernel

/-- V-SRC-7: the CTR scenario of the source, `x` sixteen times. -/
theorem test_engineRun_V_SRC_7 :
    engineRun 0 2 (keyNum 0) (blk 0x000102030405060708090a0b0c0d0e0f) (blk 0x78787878787878787878787878787878) =
      blk 0xce25487b74f0cc34ef224c47eb834471 := by decide +kernel

/-- V-MODE-8 to V-MODE-10: the selectors are whole words. -/
theorem test_engineRun_V_MODE_8_to_10 :
    engineRun 0x80000000 0 (keyNum 0) (blk 0) (blk 0) = blk 0x67671ce1fa91ddeb0f8fbbb366b531b4 ∧
    engineRun 0 0xFFFFFFFF (keyNum 0) (blk 0) (blk 0) = blk 0xdc95c078a2408989ad48a21492842087 ∧
    engineRun 5 0x100 (keyNum 0) (blk 0) (blk 0) = blk 0xdc95c078a2408989ad48a21492842087 := by decide +kernel

/-! ## Transactions: one step on a small state, vectors of 95_test_vectors.md -/

/-- P3, step 35: a CBC decryption triggered by 7. -/
theorem test_step_WR_START_P3_35 :
    outAfter (stateWith
      { dev0 with
        mode := 1, format := 1
        key := #v[0x10EB3D60, 0xBE71CA15, 0xF0AE732B, 0x81777D85, 0x072C351F, 0xD708613B, 0xA310982D, 0xF4DF1409]
        iv := #v[0x03020100, 0x07060504, 0x0B0A0908, 0x0F0E0D0C]
        inp := #v[0x044C8CF5, 0xBAF1E5D6, 0xFBAB9E77, 0xD6FB7B5F] } [.memWrite 0x018 4 7]) =
      some #v[0xE2BEC16B, 0x969F402E, 0x117E3DE9, 0x2A179373] := by decide +kernel

/-- V-W-5: a zero start write changes neither `start` nor the outputs. -/
theorem test_step_WR_START_zero_V_W_5 :
    devAfter (stateWith devOp1 [.memWrite 0x018 4 0]) = some devOp1 := rfl

/-- V-W-6: the value written is the value read. -/
theorem test_step_RD_START : (hostAfter (stateWith { dev0 with start := 0xDEADBEEF } [.memRead 0x018 4])).map (·.result) =
    some (.word 0xDEADBEEF) := by decide

theorem test_step_RD_ID : (hostAfter (stateWith dev0 [.memRead 0x000 4])).map (·.result) =
    some (.word Config.idValue) := rfl
theorem test_step_WR_ID : devAfter (stateWith dev0 [.memWrite 0x000 4 0x12345678]) = some dev0 := rfl
theorem test_step_RD_MODE : (hostAfter (stateWith { dev0 with mode := 0xFFFFFFFF } [.memRead 0x008 4])).map (·.result) =
    some (.word 0xFFFFFFFF) := by decide
theorem test_step_WR_MODE : devAfter (stateWith dev0 [.memWrite 0x008 4 0xFFFFFFFF]) =
    some { dev0 with mode := 0xFFFFFFFF } := rfl
theorem test_step_RD_FORMAT : (hostAfter (stateWith { dev0 with format := 2 } [.memRead 0x010 4])).map (·.result) =
    some (.word 2) := by decide
theorem test_step_WR_FORMAT : devAfter (stateWith dev0 [.memWrite 0x010 4 2]) = some { dev0 with format := 2 } := rfl
theorem test_step_RD_VALID : (hostAfter (stateWith { dev0 with valid := 1 } [.memRead 0x020 4])).map (·.result) =
    some (.word 1) := by decide
theorem test_step_WR_VALID : devAfter (stateWith devOp1 [.memWrite 0x020 4 1]) = some { devOp1 with valid := 1 } := rfl
/-- V-W-8, with a key word that is not zero. -/
theorem test_step_RD_KEY :
    (hostAfter (stateWith { dev0 with key := #v[1, 2, 3, 4, 5, 6, 7, 8] } [.memRead 0x050 4])).map (·.result) =
      some (.word Config.sentinel) := rfl
/-- V-W-9, the key bytes 28..31 among the others. -/
theorem test_step_WR_KEY :
    (devAfter (stateWith dev0 [.memWrite 0x060 4 0x1F1E1D1C])).map (fun d => (keyBytes (keyOfWords d.key)).drop 24) =
      some [0, 0, 0, 0, 0x1c, 0x1d, 0x1e, 0x1f] := by decide
theorem test_step_RD_IV : (hostAfter (stateWith dev0 [.memRead 0x068 4])).map (·.result) =
    some (.word Config.sentinel) := rfl
theorem test_step_WR_IV : (devAfter (stateWith dev0 [.memWrite 0x080 4 0x0F0E0D0C])).map (·.iv) =
    some #v[0, 0, 0, 0x0F0E0D0C] := by decide
theorem test_step_RD_IN : (hostAfter (stateWith { dev0 with inp := #v[1, 2, 3, 0xFFEEDDCC] } [.memRead 0x100 4])).map
    (·.result) = some (.word 0xFFEEDDCC) := by decide
theorem test_step_WR_IN : (devAfter (stateWith dev0 [.memWrite 0x100 4 0xFFEEDDCC])).map (·.inp) =
    some #v[0, 0, 0, 0xFFEEDDCC] := by decide
/-- V-W-13. -/
theorem test_step_RD_OUT : (hostAfter (stateWith devOp1 [.memRead 0x118 4])).map (·.result) =
    some (.word 0x14A248AD) := by decide
theorem test_step_WR_OUT : devAfter (stateWith devOp1 [.memWrite 0x108 4 0]) = some devOp1 := rfl
theorem test_step_RD_CHARW : (hostAfter (stateWith devOp1 [.memRead 0x140 4])).map (·.result) =
    some (.word Config.sentinel) := rfl
theorem test_step_WR_CHARW : devAfter (stateWith dev0 [.memWrite 0x128 4 0x11111111]) = some dev0 := rfl
/-- V-W-20. -/
theorem test_step_RD_INVALID : hostAfter (stateWith dev0 [.memRead 0xFFFFFFFC 4]) =
    some ⟨[], 1, .word Config.sentinel, some (.invalidRegisterOffset 0xFFFFFFFC)⟩ := rfl
/-- V-W-19. -/
theorem test_step_WR_INVALID : hostAfter (stateWith dev0 [.memWrite 0x02C 4 5]) =
    some ⟨[], 1, .nothing, some (.invalidRegisterOffset 0x02C)⟩ := rfl
/-- V-C-8. -/
theorem test_step_WRC_KEY_short :
    (devAfter (stateWith { dev0 with key := #v[9, 9, 9, 9, 9, 9, 9, 9] } [.charWrite 0x128 [0x61, 0x62, 0x63, 0x64]])).map
      (fun d => (d.key, d.recKey)) = some (#v[0x64636261, 0, 0, 0, 0, 0, 0, 0], [0x61, 0x62, 0x63, 0x64]) ∧
    (hostAfter (stateWith dev0 [.charWrite 0x128 [0x61, 0x62, 0x63, 0x64]])).map (·.event) =
      some (some (.malformedCharPayload 4)) := by decide
/-- V-C-2: 40 bytes, the last eight dropped from the words but not from the record. -/
theorem test_step_WRC_KEY_long :
    (devAfter (stateWith dev0 [.charWrite 0x128 ((List.range 40).map (BitVec.ofNat 8))])).map
      (fun d => (d.key, d.recKey.length)) =
    some (#v[0x03020100, 0x07060504, 0x0B0A0908, 0x0F0E0D0C, 0x13121110, 0x17161514, 0x1B1A1918, 0x1F1E1D1C], 40) := by
  decide
/-- V-C-9. -/
theorem test_step_WRC_IV :
    (devAfter (stateWith dev0 [.charWrite 0x130 (bytesOf 16 0x000102030405060708090a0b0c0d0e0f)])).map (·.iv) =
      some #v[0x03020100, 0x07060504, 0x0B0A0908, 0x0F0E0D0C] := by decide
/-- V-C-3. -/
theorem test_step_WRC_IN_short :
    (devAfter (stateWith dev0 [.charWrite 0x138 [1, 2, 3, 4, 5]])).map (·.inp) = some #v[0x04030201, 0x05, 0, 0] ∧
    (hostAfter (stateWith dev0 [.charWrite 0x138 [1, 2, 3, 4, 5]])).map (·.event) =
      some (some (.malformedCharPayload 5)) := by decide
/-- V-C-11, with an empty payload: nothing is raised. -/
theorem test_step_WRC_OUT : devAfter (stateWith devOp1 [.charWrite 0x140 []]) = some devOp1 ∧
    (hostAfter (stateWith devOp1 [.charWrite 0x140 []])).map (·.event) = some none := ⟨rfl, rfl⟩
theorem test_step_RDC_KEY : (hostAfter (stateWith dev0 [.charRead 0x128])).map (·.result) = some (.text []) := rfl
theorem test_step_RDC_IV : (hostAfter (stateWith dev0 [.charRead 0x130])).map (·.result) = some (.text []) := rfl
/-- V-C-7, read back from the input words and not from the record: `"0 1 9 10 0 0 0 0 0 0 0 0 100 0 0 0\n"`. -/
theorem test_step_RDC_IN :
    (hostAfter (stateWith { dev0 with inp := #v[0x0A090100, 0, 0, 0x64], recIn := [7] } [.charRead 0x138])).map (·.result) =
      some (.text [0x30, 0x20, 0x31, 0x20, 0x39, 0x20, 0x31, 0x30, 0x20, 0x30, 0x20, 0x30, 0x20, 0x30, 0x20, 0x30, 0x20,
        0x30, 0x20, 0x30, 0x20, 0x30, 0x20, 0x30, 0x20, 0x31, 0x30, 0x30, 0x20, 0x30, 0x20, 0x30, 0x20, 0x30, 0x0A]) := by
  decide
/-- V-C-13: `"220 149 192 120 162 64 137 137 173 72 162 20 146 132 32 135\n"`. -/
theorem test_step_RDC_OUT :
    (hostAfter (stateWith devOp1 [.charRead 0x140])).map (·.result) = some (.text
      ("220 149 192 120 162 64 137 137 173 72 162 20 146 132 32 135\n".toList.map fun c => BitVec.ofNat 8 c.toNat)) := by
  decide
/-- V-C-14 and V-C-15. -/
theorem test_step_RDC_INVALID :
    hostAfter (stateWith dev0 [.charRead 0x008]) = some ⟨[], 1, .text [], none⟩ ∧
    hostAfter (stateWith dev0 [.charRead 0x0A0]) = some ⟨[], 1, .text [], some (.invalidRegisterOffset 0x0A0)⟩ := by
  decide
/-- V-C-16 and V-C-17. -/
theorem test_step_WRC_INVALID :
    devAfter (stateWith dev0 [.charWrite 0x018 [1, 0, 0, 0]]) = some dev0 ∧
    hostAfter (stateWith dev0 [.charWrite 0x200 []]) = some ⟨[], 1, .nothing, some (.invalidRegisterOffset 0x200)⟩ :=
  ⟨rfl, rfl⟩

/-! ## Witnesses: for each statement with hypotheses, a state and operands that meet them, clause by clause -/

theorem witness_DecodeOfEncodeIsTheInstruction :
    Instr.wf .literal (.rdInvalid 0x0A0) = true ∧ Instr.wf .uniform (.wrInvalid 0x100 5) = true ∧
    Instr.wf .literal (.rdcInvalid 0x120) = true ∧ Instr.wf .literal (.wrcInvalid 0x144 [1]) = true ∧
    Instr.wf .literal (.wrKey 7 0xFFFFFFFF) = true := by decide

theorem witness_DecodedAccessIsCanonical :
    decode .literal (.memRead 0x100 4) = .ok (.rdIn 3) ∧ decode .uniform (.memWrite 0x0A0 4 7) = .ok (.wrIn 3 7) ∧
    decode .literal (.charWrite 0x138 [1]) = .ok (.wrcIn [1]) := by decide

theorem witness_EveryDescriptorDecodesToItsOwnInstruction :
    Decodes .literal (accessDescriptor (.memRead 0x020 4)) 0 [] .rdValid := rfl

theorem witness_RegisterMapIsExact :
    regAt .literal 0x000 = some (.word .id) ∧ regAt .literal 0x140 = some (.char .outChar) ∧
    (⟨0x0A0, .word (.inp 3), .rw⟩ : MapRow) ∈ registerMap .uniform := by decide

theorem witness_AlternativeIn3OffsetMovesOneRegister :
    (0x100 : Offset) ≠ 0x0A0 ∧ regAt .literal 0x100 = some (.word (.inp 3)) ∧
    regAt .literal 0x098 = some (.word (.inp 2)) := by decide

theorem witness_StepRunsTheDecodedTransaction :
    (stateWith dev0 [.memWrite 0x018 4 1]).dev.fsm = .idle ∧
    (stateWith dev0 [.memWrite 0x018 4 1]).host.pending = .memWrite 0x018 4 1 :: [] ∧
    decode (stateWith dev0 [.memWrite 0x018 4 1]).in3 (.memWrite 0x018 4 1) = .ok (.wrStart 1) := by decide

theorem witness_StepsThatRunNoInstruction :
    ((stateWith dev0 [.memRead 0x008 8]).dev.fsm = .idle ∧ accessSize (.memRead 0x008 8) ≠ 4 ∧
      accessSize (.memWrite 0x008 0 1) ≠ 4) ∧
    (stateWith { dev0 with fsm := .computing } []).dev.fsm = .computing ∧
    (stateWith dev0 []).dev.fsm = .idle ∧ (stateWith dev0 []).host.pending = [] := by decide

theorem witness_ControlReadsReturnTheStoredWord : Invariant (stateWith devOp1 []) := ⟨rfl, rfl⟩

theorem witness_StartWriteRunsOneOperation : (1 : Word) ≠ 0 ∧ (0xFFFFFFFF : Word) ≠ 0 ∧ (0x80000000 : Word) ≠ 0 ∧
    (0 : Word) = 0 := by decide

theorem witness_KeyAndIvWritesStoreTheirWord : (3 : Nat) < 4 ∧ (0 : Nat) < 4 ∧ (7 : Fin 8).val = 7 ∧ (3 : Fin 4).val = 3 := by
  decide

theorem witness_InputWordsAreReadAndWritten : (3 : Nat) < 4 ∧ (0 : Nat) < 4 ∧ (3 : Fin 4) = 3 ∧ (2 : Fin 4) ≠ 3 := by decide

theorem witness_WordAccessAtInvalidOffsets :
    regAt .literal 0x001 = none ∧ regAt .literal 0x124 = none ∧ regAt .literal 0x141 = none ∧
    regAt .uniform 0x100 = none ∧ regAt .literal 0xFFFFFFFF = none := by decide

theorem witness_CharWritesLoadTheWords :
    (List.replicate 31 (0 : Byte)).length < 32 ∧ ¬ (List.replicate 32 (0 : Byte)).length < 32 ∧
    (List.replicate 15 (0 : Byte)).length < 16 ∧ ¬ (List.replicate 16 (0 : Byte)).length < 16 := by decide

theorem witness_CharAccessWithoutEffect :
    (∀ c, (0x000 : Offset) ≠ charOffset c) ∧ regAt .literal 0x000 = some (.word .id) ∧
    (∀ c, (0x141 : Offset) ≠ charOffset c) ∧ regAt .literal 0x141 = none := by
  refine ⟨fun c => ?_, by decide, fun c => ?_, by decide⟩ <;> cases c <;> decide

theorem witness_PackedPayloadWords : (0 : Nat) < 4 ∧ (7 : Nat) < 8 := by decide

theorem witness_RenderedTextShape :
    (0x30 : Byte) ∈ decimalBytes 100 ∧ (decimalBytes 0).head? = some 0x30 ∧ decimalBytes 255 = [0x32, 0x35, 0x35] := by
  decide

theorem witness_ReadsLeaveTheDeviceUnchanged :
    descriptorDir (encodeDescriptor .literal (.rdInvalid 0xFFFFFFFC)) = false ∧
    descriptorDir (encodeDescriptor .literal .rdcOut) = false ∧
    descriptorDir (encodeDescriptor .uniform (.rdIn 3)) = false := by decide

theorem witness_WordWriteTouchesOneRegister :
    Reg.id ≠ .start ∧ attributeOf (.word .id) = .ro ∧ Reg.key 7 ≠ .start ∧ attributeOf (.word (.key 7)) ≠ .ro := by decide

theorem witness_AttributesProtectRegisters :
    attributeOf (.word (.out 3)) = .ro ∧ attributeOf (.char .outChar) = .ro ∧ attributeOf (.word (.key 0)) = .wo ∧
    attributeOf (.char .ivChar) = .wo := by decide

theorem witness_OnlyNonzeroStartWritesOperate :
    (0x80000000 : Word) ≠ 0 ∧ (exec (.wrcIn [1]) (stateWith devOp1 []) =
      .next (raiseIfShort [1] 4 (answer .nothing (withDevice (stateWith devOp1 []) (loadIn devOp1 [1])))) ∧
      ∀ v, Instr.wrcIn [1] = .wrStart v → v = 0) ∧
    exec (.wrStart 0) (stateWith devOp1 []) = .next (answer .nothing (stateWith devOp1 [])) ∧
    ∀ v, Instr.wrStart 0 = .wrStart v → v = 0 :=
  ⟨by decide, ⟨rfl, fun _ h => nomatch h⟩, rfl, fun _ h => (Instr.wrStart.inj h).symm⟩

theorem witness_OperationReadsOnlyItsLatchedRegisters :
    (1 : Word) ≠ 0 ∧ (0xDEADBEEF : Word) ≠ 0 ∧ (stateWith devOp1 []).dev.key = (stateWith dev0 []).dev.key ∧
    (stateWith devOp1 []).dev.iv = (stateWith dev0 []).dev.iv ∧ (stateWith devOp1 []).dev.inp = (stateWith dev0 []).dev.inp ∧
    (stateWith devOp1 []).dev.mode = (stateWith dev0 []).dev.mode ∧
    (stateWith devOp1 []).dev.format = (stateWith dev0 []).dev.format ∧
    (stateWith devOp1 []).dev.out ≠ (stateWith dev0 []).dev.out := by decide

/-- The three transactions, on a state built for them. -/
def threeTransactions : State :=
  stateWith dev0 [.memWrite 0x100 4 5, .memWrite 0x018 4 1, .memRead 0x120 4]

theorem witness_WriteThenTriggerThenRead :
    threeTransactions.dev.fsm = .idle ∧ (1 : Word) ≠ 0 ∧
    threeTransactions.host.pending = encode threeTransactions.in3 (.wrIn 3 5) ::
      encode threeTransactions.in3 (.wrStart 1) :: encode threeTransactions.in3 (.rdOut 3) :: [] := by decide

theorem witness_SetUpAndRunComputesTheEngine :
    (stateWith { devOp1 with inp := #v[7, 7, 7, 7] } []).dev.fsm = .idle ∧
    (stateWith { devOp1 with inp := #v[7, 7, 7, 7] } []).host.pending = [] := ⟨rfl, rfl⟩

/-- 30_encoding.md R98 on the words of P1, steps 8 to 11. -/
theorem test_pseudo_setin : assemble .literal (pseudoSetIn (blk 0x00112233445566778899aabbccddeeff)) =
    [.memWrite 0x088 4 0x33221100, .memWrite 0x090 4 0x77665544, .memWrite 0x098 4 0xBBAA9988,
     .memWrite 0x100 4 0xFFEEDDCC] := by decide

theorem witness_ResetStateValues : Reg.key 7 ≠ .id ∧ Reg.out 3 ≠ .id := by decide

theorem witness_StepKeepsTheInvariant :
    Invariant (stateWith dev0 [.memWrite 0x000 4 5]) ∧
    step (stateWith dev0 [.memWrite 0x000 4 5]) = .next ⟨dev0, .literal, ⟨[], 1, .nothing, none⟩⟩ := ⟨⟨rfl, rfl⟩, rfl⟩

theorem witness_LegalRunsNeverStop :
    Legal (stateWith dev0 [.memWrite 0x000 4 5, .charRead 0x200, .memWrite 0x018 4 1]) := by
  exact ⟨rfl, by decide⟩

theorem witness_KeyAndIvStaySecretWithoutATrigger :
    StatesAgree SameButSecrets (stateWith dev0 [.memRead 0x028 4, .memWrite 0x018 4 0])
      (stateWith { dev0 with key := #v[1, 2, 3, 4, 5, 6, 7, 8], iv := #v[9, 9, 9, 9], recKey := [1] }
        [.memRead 0x028 4, .memWrite 0x018 4 0]) ∧
    TriggerFree (stateWith dev0 [.memRead 0x028 4, .memWrite 0x018 4 0]) := by
  refine ⟨⟨rfl, rfl, rfl⟩, fun a ha v hv => ?_⟩
  rcases List.mem_cons.1 ha with rfl | ha
  · rw [show decode (stateWith dev0 _).in3 (.memRead 0x028 4) = .ok (.rdKey 0) from by decide] at hv
    cases hv
  · obtain rfl := List.mem_singleton.1 ha
    rw [show decode (stateWith dev0 _).in3 (.memWrite 0x018 4 0) = .ok (.wrStart 0) from by decide] at hv
    cases hv; rfl

theorem witness_SideRecordsAreUnobservable :
    StatesAgree SameButRecords (stateWith dev0 [.memWrite 0x018 4 1])
      (stateWith { dev0 with recKey := [1], recIv := [2, 3], recIn := [] } [.memWrite 0x018 4 1]) := ⟨rfl, rfl, rfl⟩

theorem witness_CharPathEqualsTheWordPath :
    (stateWith devOp1 []).dev.fsm = .idle ∧ (stateWith devOp1 []).host.pending = [] := ⟨rfl, rfl⟩

theorem witness_InterleavedCallersAreAllServed :
    Interleaves [[.memRead 0x008 4, .charRead 0x140], [.memWrite 0x018 4 1]]
      [.memRead 0x008 4, .memWrite 0x018 4 1, .charRead 0x140] ∧
    (∀ q ∈ [[Access.memRead 0x008 4, .charRead 0x140], [.memWrite 0x018 4 1]], ∀ a ∈ q, accessSize a = 4) ∧
    (stateWith dev0 []).dev.fsm = .idle ∧ (stateWith dev0 []).host.pending = [] := by
  refine ⟨?_, by decide, rfl, rfl⟩
  refine .take _ 0 (by decide) _ [.charRead 0x140] _ rfl (.take _ 1 (by decide) _ [] _ rfl
    (.take _ 0 (by decide) _ [] _ rfl (.done _ (by decide))))

theorem witness_BytesAndWordsAreInverse : ([] : List Byte).length % 4 = 0 ∧ [1, 2, 3, (4 : Byte)].length % 4 = 0 := by decide

theorem witness_FieldInverseAndSBoxes : (0x53 : Byte) ≠ 0 ∧ gmul 0x53 0xCA = 1 ∧ ginv 0x53 = 0xCA := by decide

theorem witness_KeyScheduleRecurrence :
    (1 ≤ 1 ∧ 1 < 7 ∧ 1 ≤ 6 ∧ 6 < 7) ∧ (0 : Nat) < 8 ∧ (7 : Nat) < 8 ∧ (0 : Nat) < 4 ∧ (3 : Nat) < 4 ∧
    8 ≤ 8 ∧ 8 < 60 ∧ 8 % 8 = 0 ∧ 12 % 8 = 4 ∧ 8 ≤ 59 ∧ 59 < 60 ∧ 59 % 8 = 3 := by decide

theorem witness_RowShiftsAndKeyAdditionOnBytes : (0 : Nat) < 4 ∧ (3 : Nat) < 4 := by decide

theorem witness_CipherRoundsInOrder : (0 : Nat) < 13 ∧ (12 : Nat) < 13 ∧ (13 : Nat) < 14 ∧ (13 : Nat) ≠ 0 ∧ (1 : Nat) ≠ 0 := by
  decide

theorem witness_EngineSelectsTheDriver :
    (2 : Word) ≠ 0 ∧ (2 : Word) ≠ 1 ∧ (0xFFFFFFFF : Word) ≠ 0 ∧ (0xFFFFFFFF : Word) ≠ 1 ∧ (0x80000000 : Word) ≠ 0 := by
  decide

theorem witness_DeviceRoundTrip :
    (stateWith { devOp1 with format := 1 } []).dev.mode = 0 ∧ (1 : Word) ≠ 0 ∧ (7 : Word) ≠ 0 ∧ (0x80000000 : Word) ≠ 0 := by
  decide

theorem witness_EcbAndCbcBuffersInvert :
    (List.replicate 15 (0 : Byte)).length % 16 ≠ 0 ∧ (List.replicate 17 (0 : Byte)).length % 16 ≠ 0 ∧
    (List.replicate 32 (0 : Byte)).length % 16 = 0 ∧ ([] : List Byte).length % 16 = 0 ∧
    0 < (List.replicate 32 (0 : Byte)).length / 16 ∧ 1 < (List.replicate 32 (0 : Byte)).length / 16 := by decide

theorem witness_SubstitutionsAndMixingsOnBytes :
    (0 : Nat) < 4 ∧ (3 : Nat) < 4 ∧
    (blockBytes (blk 0x000102030405060708090a0b0c0d0e0f)).getD (4 * 3) 0 = 0x0c ∧
    (blockBytes (blk 0x000102030405060708090a0b0c0d0e0f)).getD (4 * 3 + 1) 0 = 0x0d ∧
    (blockBytes (blk 0x000102030405060708090a0b0c0d0e0f)).getD (4 * 3 + 2) 0 = 0x0e ∧
    (blockBytes (blk 0x000102030405060708090a0b0c0d0e0f)).getD (4 * 3 + 3) 0 = 0x0f := by decide

theorem witness_DoublingAndSBoxBits :
    (0x7F : Byte).toNat < 128 ∧ ¬ (0x80 : Byte).toNat < 128 ∧ (0 : Nat) < 8 ∧ (7 : Nat) < 8 := by decide

theorem witness_ByteOrderAsNumbers : (0 : Nat) < 4 ∧ (3 : Nat) < 4 ∧ (0 : Nat) < 16 ∧ (15 : Nat) < 16 := by decide

theorem witness_CtrBufferKeystream : (0 : Nat) < [(7 : Byte)].length ∧ (16 : Nat) < (List.replicate 17 (0 : Byte)).length := by
  decide

end Sys2Proof.Tests
end

section
/-! PROOFS. The conversions of bytes and words (00_scope.md R11, R12, R17): byte strings and word lists are inverse, and the
byte order as numbers. -/

namespace Sys2Proof.Machine

/-! ### Byte strings and word lists -/

@[simp] theorem length_wordsToBytes (ws : List Word) : (wordsToBytes ws).length = 4 * ws.length := by
  induction ws with
  | nil => rfl
  | cons w ws ih =>
    simp only [wordsToBytes, quadBytes, List.length_append, List.length_cons, List.length_nil, ih]
    omega

/-- The four bytes at the head of a string give the first word (R17). -/
theorem bytesToWords_quadBytes_append (q : ByteQuad) (rest : List Byte) :
    bytesToWords (quadBytes q ++ rest) = wordOfQuad q :: bytesToWords rest := rfl

@[simp] theorem bytesToWords_wordsToBytes (ws : List Word) : bytesToWords (wordsToBytes ws) = ws := by
  induction ws with
  | nil => rfl
  | cons w ws ih =>
    rw [wordsToBytes, bytesToWords_quadBytes_append, wordOfQuad_quadOfWord, ih]

/-- The bytes of the word of four bytes are those four (R17). -/
theorem quadOfWord_wordLE (b0 b1 b2 b3 : Byte) : quadOfWord (wordLE b0 b1 b2 b3) = ⟨b0, b1, b2, b3⟩ :=
  quadOfWord_wordOfQuad ⟨b0, b1, b2, b3⟩

theorem wordsToBytes_bytesToWords {b : List Byte} (h : b.length % 4 = 0) : wordsToBytes (bytesToWords b) = b := by
  induction b using bytesToWords.induct with
  | case1 b0 b1 b2 b3 rest ih =>
    have hrest : rest.length % 4 = 0 := by
      simp only [List.length_cons] at h
      omega
    rw [bytesToWords, wordsToBytes, quadOfWord_wordLE, ih hrest]
    rfl
  | case2 => rfl
  | case3 => simp at h
  | case4 => simp at h
  | case5 => simp at h

/-! ### Bytes of a word as numbers -/

/-- Byte `j` of a word is its digit of weight `256 ^ j`; above the word both sides are zero. -/
theorem toNat_byteOf (x : Word) (j : Nat) : (byteOf x j).toNat = x.toNat / 256 ^ j % 256 := by
  rw [byteOf, BitVec.extractLsb'_toNat, Nat.shiftRight_eq_div_pow, Nat.pow_mul]

/-- A word is the sum of its four bytes by weight. -/
theorem toNat_eq_sum_byteOf (x : Word) :
    x.toNat = (byteOf x 0).toNat + 256 * (byteOf x 1).toNat + 65536 * (byteOf x 2).toNat +
      16777216 * (byteOf x 3).toNat := by
  simp only [toNat_byteOf]
  have := x.isLt
  omega

theorem toNat_wordLE (b0 b1 b2 b3 : Byte) :
    (wordLE b0 b1 b2 b3).toNat = b0.toNat + 256 * b1.toNat + 65536 * b2.toNat + 16777216 * b3.toNat := by
  obtain ⟨h0, h1, h2, h3⟩ := byteOf_wordLE b0 b1 b2 b3
  rw [toNat_eq_sum_byteOf, h0, h1, h2, h3]

/-! ### Bytes of a quad, a block, a payload and a buffer by position -/

/-- A word packed from four consecutive values of `f` has `f j` for byte `j` (R17). -/
theorem byteOf_wordLE_apply (f : Nat → Byte) {j : Nat} (hj : j < 4) :
    byteOf (wordLE (f 0) (f 1) (f 2) (f 3)) j = f j := by
  obtain ⟨h0, h1, h2, h3⟩ := byteOf_wordLE (f 0) (f 1) (f 2) (f 3)
  match j, hj with
  | 0, _ => exact h0
  | 1, _ => exact h1
  | 2, _ => exact h2
  | 3, _ => exact h3

/-- Byte `j` of the word of a quad is byte `j` of the quad (20_memory.md R66). -/
theorem byteOf_wordOfQuad (q : ByteQuad) {j : Nat} (hj : j < 4) : byteOf (wordOfQuad q) j = (quadBytes q).getD j 0 :=
  byteOf_wordLE_apply ((quadBytes q).getD · 0) hj

/-- Word `i` of a block is the word of its column `i` (20_memory.md R66). -/
theorem get_wordsOfBlock (b : Block) (i : Fin 4) : (wordsOfBlock b).get i = wordOfQuad (columnAt b i) := by
  fin_cases i <;> rfl

/-- Byte `4i + j` of a block is byte `j` of its column `i`. -/
theorem getD_blockBytes (b : Block) (i : Fin 4) {j : Nat} (hj : j < 4) :
    (blockBytes b).getD (4 * i.val + j) 0 = (quadBytes (columnAt b i)).getD j 0 := by
  interval_cases j <;> fin_cases i <;> rfl

/-- Byte `j` of word `i` of a payload is the payload's byte `4i + j` (20_memory.md R67; 46_char_access.md R260). -/
theorem byteOf_payloadWord (p : List Byte) (i : Nat) {j : Nat} (hj : j < 4) :
    byteOf (Safety.payloadWord p i) j = Safety.payloadByte p (4 * i + j) :=
  byteOf_wordLE_apply (fun k => Safety.payloadByte p (4 * i + k)) hj

/-- The bytes of the block of a list are the list's first sixteen, zero beyond its end (R12). -/
theorem getD_blockBytes_blockOfBytes (l : List Byte) {i : Nat} (hi : i < 16) :
    (blockBytes (blockOfBytes l)).getD i 0 = l.getD i 0 := by
  have hbytes : blockBytes (blockOfBytes l) = (List.range 16).map (l.getD · 0) := rfl
  rw [hbytes]
  simp [hi]

/-- Block `j` of a buffer is its bytes from `16j` on (R12). -/
theorem getD_blockBytes_bufferBlock (d : List Byte) (j : Nat) {i : Nat} (hi : i < 16) :
    (blockBytes (Safety.bufferBlock d j)).getD i 0 = d.getD (16 * j + i) 0 := by
  rw [Safety.bufferBlock, getD_blockBytes_blockOfBytes _ hi]
  simp [List.getD_eq_getElem?_getD, hi]

/-! ### Addition of blocks -/

@[simp] theorem length_blockBytes (b : Block) : (blockBytes b).length = 16 := rfl

/-- Blocks are added byte by byte (R11). -/
theorem blockBytes_blockXor (a b : Block) :
    blockBytes (blockXor a b) = List.zipWith (· ^^^ ·) (blockBytes a) (blockBytes b) := rfl

theorem getD_blockBytes_blockXor (a b : Block) {i : Nat} (hi : i < 16) :
    (blockBytes (blockXor a b)).getD i 0 = (blockBytes a).getD i 0 ^^^ (blockBytes b).getD i 0 := by
  have ha : i < (blockBytes a).length := hi
  have hb : i < (blockBytes b).length := hi
  rw [List.getD_eq_getElem _ _ ha, List.getD_eq_getElem _ _ hb, List.getD_eq_getElem (blockBytes (blockXor a b)) _ hi]
  simp [blockBytes_blockXor]

end Sys2Proof.Machine

namespace Sys2Proof.Proofs
open Sys2Proof.Machine Sys2Proof.Safety

/-- Settles O38: each direction by induction along the function that is undone, four bytes and one word at a time. -/
theorem bytesAndWordsAreInverse : Obligations.BytesAndWordsAreInverse := by
  unfold Obligations.BytesAndWordsAreInverse
  exact ⟨fun ws => ⟨bytesToWords_wordsToBytes ws, length_wordsToBytes ws⟩, fun _ h => wordsToBytes_bytesToWords h⟩

/-- Settles O55: the digits of a word to the base 256, then each layout by the position of its bytes. -/
theorem byteOrderAsNumbers : Obligations.ByteOrderAsNumbers := by
  unfold Obligations.ByteOrderAsNumbers
  refine ⟨fun x j _ => toNat_byteOf x j, toNat_wordLE, ?block, ?payload,
    fun d j _ hi => getD_blockBytes_bufferBlock d j hi, fun a b _ hi => getD_blockBytes_blockXor a b hi⟩
  case block =>
    intro b i j hj
    rw [get_wordsOfBlock, byteOf_wordOfQuad _ hj, getD_blockBytes b i hj]
  case payload =>
    intro p i j hj
    exact ⟨byteOf_payloadWord p i hj, rfl⟩

end Sys2Proof.Proofs
end

section
/-! PROOFS. The state and its invariant (10_state.md R31, R41, R44), and what the host cannot observe of it (R40, R45): the
step at a decoding head, the invariant at reset and along every step, and the two noninterference statements. -/

namespace Sys2Proof.Machine

open Sys2Proof.Safety

/-! ### The step -/

/-- A step at a decoding head of the sequence is the head's instruction (10_state.md R44; 20_memory.md R71). -/
theorem step_of_decode {s : State} {a : Access} {rest : List Access} {i : Instr} (h : s.dev.fsm = .idle)
    (hp : s.host.pending = a :: rest) (hd : decode s.in3 a = .ok i) : step s = exec i (takeTransaction rest s) := by
  simp only [step, h, hp, hd]

/-- The next states of a step: the state itself when nothing is pending, else the next state of the head's instruction. -/
theorem step_next_cases {s t : State} (hstep : step s = .next t) :
    (s.host.pending = [] ∧ t = s) ∨
    ∃ a rest i, s.host.pending = a :: rest ∧ decode s.in3 a = .ok i ∧ exec i (takeTransaction rest s) = .next t := by
  have hidle : s.dev.fsm = .idle := by
    cases h : s.dev.fsm with
    | idle => rfl
    | computing => simp [step, h] at hstep
  rcases step_cases s hidle with ⟨hp, heq⟩ | ⟨a, rest, i, hp, hd, heq⟩ | ⟨a, rest, -, -, heq⟩
  · rw [heq] at hstep
    injection hstep with hst
    exact .inl ⟨hp, hst.symm⟩
  · exact .inr ⟨a, rest, i, hp, hd, heq ▸ hstep⟩
  · rw [heq] at hstep
    cases hstep

/-- What every instruction leaves as it was, of the next state it answers. -/
theorem exec_keeps {i : Instr} {s t : State} (h : exec i s = .next t) :
    t.in3 = s.in3 ∧ t.host.pending = s.host.pending ∧ t.dev.id = s.dev.id ∧
      (s.dev.fsm = .idle → t.dev.fsm = .idle) := by
  obtain ⟨u, hu, hin3, hpending, -, hid, hfsm⟩ := exec_next i s
  rw [hu] at h
  injection h with hut
  exact hut ▸ ⟨hin3, hpending, hid, hfsm⟩

/-! ### The invariant -/

theorem invariant_resetWith (m : In3Offset) (c : ResetStorage) : Invariant (State.resetWith m c) := ⟨rfl, rfl⟩

/-- Every instruction keeps the invariant. -/
theorem exec_keeps_invariant {i : Instr} {s t : State} (hinv : Invariant s) (h : exec i s = .next t) : Invariant t := by
  obtain ⟨hidle, hvalue⟩ := hinv
  obtain ⟨-, -, hid, hfsm⟩ := exec_keeps h
  exact ⟨hfsm hidle, hid.trans hvalue⟩

end Sys2Proof.Machine

namespace Sys2Proof.Safety

open Sys2Proof.Machine

/-! ### States that agree stay so under the shared operations -/

section Agreement

variable {r : Device → Device → Prop} {s t : State}

theorem StatesAgree.answer (h : StatesAgree r s t) (x : Result) :
    StatesAgree r (Machine.answer x s) (Machine.answer x t) := by
  obtain ⟨hdev, hin3, hhost⟩ := h
  exact ⟨hdev, hin3, by simp only [Machine.answer, hhost]⟩

theorem StatesAgree.withDevice (h : StatesAgree r s t) {d e : Device} (hde : r d e) :
    StatesAgree r (Machine.withDevice s d) (Machine.withDevice t e) := by
  obtain ⟨-, hin3, hhost⟩ := h
  exact ⟨hde, hin3, hhost⟩

theorem StatesAgree.takeTransaction (h : StatesAgree r s t) (rest : List Access) :
    StatesAgree r (Machine.takeTransaction rest s) (Machine.takeTransaction rest t) := by
  obtain ⟨hdev, hin3, hhost⟩ := h
  exact ⟨hdev, hin3, by simp only [Machine.takeTransaction, hhost]⟩

theorem StatesAgree.raiseEvent (h : StatesAgree r s t) (e : Event) :
    StatesAgree r (Machine.raiseEvent e s) (Machine.raiseEvent e t) := by
  obtain ⟨hdev, hin3, hhost⟩ := h
  exact ⟨hdev, hin3, by simp only [Machine.raiseEvent, hhost]⟩

theorem StatesAgree.raiseIfShort (h : StatesAgree r s t) (p : List Byte) (n : Nat) :
    StatesAgree r (Machine.raiseIfShort p n s) (Machine.raiseIfShort p n t) := by
  unfold Machine.raiseIfShort
  split
  · exact h.raiseEvent _
  · exact h

/-- Whether the event is raised hangs on the map alone, which the two states share. -/
theorem StatesAgree.raiseIfNoRegister (h : StatesAgree r s t) (off : Offset) :
    StatesAgree r (Machine.raiseIfNoRegister off s) (Machine.raiseIfNoRegister off t) := by
  have ⟨_, hin3, _⟩ := h
  unfold Machine.raiseIfNoRegister
  rw [hin3]
  split
  · exact h.raiseEvent _
  · exact h

/-- Outcomes that agree are two next states that agree, or one and the same refusal: there is no fault. -/
theorem OutcomesAgree.cases {x y : Host.Outcome State Fault Refusal} (h : OutcomesAgree r x y) :
    (∃ u w, x = .next u ∧ y = .next w ∧ StatesAgree r u w) ∨ ∃ e, x = .refused e ∧ y = .refused e := by
  cases x with
  | fault e => exact nomatch e
  | next u =>
    cases y with
    | next w => exact .inl ⟨u, w, rfl, rfl, h⟩
    | refused _ | fault _ => exact h.elim
  | refused e =>
    cases y with
    | refused e' => exact .inr ⟨e, rfl, congrArg _ (Eq.symm h)⟩
    | next _ | fault _ => exact h.elim

end Agreement

/-! ### Relations of devices that no transaction but a trigger tells apart -/

/-- The relation `r` hides nothing but key and IV words and side records, and every store that a transaction makes other
than a triggered operation's keeps it (10_state.md R45). -/
structure HiddenFromHost (r : Device → Device → Prop) : Prop where
  sameButSecrets : ∀ {d e}, r d e → SameButSecrets d e
  writeReg : ∀ {d e}, r d e → ∀ q v, r (writeReg d q v) (writeReg e q v)
  loadKey : ∀ {d e}, r d e → ∀ p, r (loadKey d p) (loadKey e p)
  loadIv : ∀ {d e}, r d e → ∀ p, r (loadIv d p) (loadIv e p)
  loadIn : ∀ {d e}, r d e → ∀ p, r (loadIn d p) (loadIn e p)

/-- If `i` is a write to `start`, what that write does to related devices leaves them related. -/
def StartKeeps (r : Device → Device → Prop) (i : Instr) : Prop :=
  ∀ v, i = .wrStart v → ∀ d e, r d e → r (writeStart d v) (writeStart e v)

theorem SameButSecrets.fsm_eq {d e : Device} (h : SameButSecrets d e) : d.fsm = e.fsm :=
  (congrArg Device.fsm h).symm

/-- A register that is not write-only is no secret (20_memory.md R62; 60_exceptions.md R308). -/
theorem SameButSecrets.readReg_eq {d e : Device} (h : SameButSecrets d e) {q : Reg}
    (hq : attributeOf (.word q) ≠ .wo) : readReg d q = readReg e q := by
  have hread := (congrArg (readReg · q) h).symm
  cases q with
  | key i => exact absurd rfl hq
  | iv i => exact absurd rfl hq
  | _ => exact hread

/-- The two char reads that render words render them alike (46_char_access.md R268, R269). -/
theorem SameButSecrets.inp_eq {d e : Device} (h : SameButSecrets d e) : d.inp = e.inp :=
  (congrArg Device.inp h).symm

theorem SameButSecrets.out_eq {d e : Device} (h : SameButSecrets d e) : d.out = e.out :=
  (congrArg Device.out h).symm

theorem SameButRecords.sameButSecrets {d e : Device} (h : SameButRecords d e) : SameButSecrets d e := by
  have hkey : e.key = d.key := (congrArg Device.key h :)
  have hiv : e.iv = d.iv := (congrArg Device.iv h :)
  rw [SameButSecrets, hkey, hiv]
  exact h

/-- Key, IV and side records are hidden: no store reads any of them. -/
theorem hiddenFromHost_sameButSecrets : HiddenFromHost SameButSecrets where
  sameButSecrets h := h
  writeReg h q v := by
    have hwrite := congrArg (writeReg · q v) h
    cases q <;> exact hwrite
  loadKey h p := congrArg (loadKey · p) h
  loadIv h p := congrArg (loadIv · p) h
  loadIn h p := congrArg (loadIn · p) h

/-- The side records alone are hidden. -/
theorem hiddenFromHost_sameButRecords : HiddenFromHost SameButRecords where
  sameButSecrets := SameButRecords.sameButSecrets
  writeReg h q v := by
    have hwrite := congrArg (writeReg · q v) h
    cases q <;> exact hwrite
  loadKey h p := congrArg (loadKey · p) h
  loadIv h p := congrArg (loadIv · p) h
  loadIn h p := congrArg (loadIn · p) h

/-- A write to `start` that triggers nothing keeps every relation. -/
theorem startKeeps_of_zero {r : Device → Device → Prop} {i : Instr} (h : ∀ v, i = .wrStart v → v = 0) :
    StartKeeps r i := by
  intro v hi d e hde
  obtain rfl := h v hi
  exact hde

/-- A triggered operation reads no side record (44_device_operation.md R190, R191). -/
theorem startKeeps_sameButRecords (i : Instr) : StartKeeps SameButRecords i := by
  intro v _ d e hde
  unfold writeStart
  split
  · exact congrArg (fun x => doOperation (writeReg x .start v)) hde
  · exact hde

/-! ### Related states stay so under every transaction -/

section Runs

variable {r : Device → Device → Prop} {s t : State}

/-- A word read of a register that is not write-only gives the same word in both states. -/
theorem HiddenFromHost.readStored_agree (hr : HiddenFromHost r) (h : StatesAgree r s t) {q : Reg}
    (hq : attributeOf (.word q) ≠ .wo) : OutcomesAgree r (readStored q s) (readStored q t) := by
  have ⟨hdev, _, _⟩ := h
  unfold readStored
  rw [(hr.sameButSecrets hdev).readReg_eq hq]
  exact h.answer _

theorem HiddenFromHost.storeWord_agree (hr : HiddenFromHost r) (h : StatesAgree r s t) (q : Reg) (v : Word) :
    OutcomesAgree r (storeWord q v s) (storeWord q v t) :=
  (h.withDevice (hr.writeReg h.1 q v)).answer _

/-- Every instruction answers related states with related states, a trigger only if its operation does. -/
theorem HiddenFromHost.exec_agree (hr : HiddenFromHost r) (h : StatesAgree r s t) {i : Instr}
    (hstart : StartKeeps r i) : OutcomesAgree r (exec i s) (exec i t) := by
  have ⟨hdev, _, _⟩ := h
  have hsecrets := hr.sameButSecrets hdev
  cases i with
  | rdId | rdMode | rdFormat | rdStart | rdValid | rdIn _ | rdOut _ => exact hr.readStored_agree h nofun
  | wrMode v | wrFormat v | wrValid v | wrKey _ v | wrIv _ v | wrIn _ v => exact hr.storeWord_agree h _ v
  | wrStart v => exact (h.withDevice (hstart v rfl _ _ hdev)).answer _
  | wrcKey p => exact ((h.withDevice (hr.loadKey hdev p)).answer _).raiseIfShort p 8
  | wrcIv p => exact ((h.withDevice (hr.loadIv hdev p)).answer _).raiseIfShort p 4
  | wrcIn p => exact ((h.withDevice (hr.loadIn hdev p)).answer _).raiseIfShort p 4
  | rdcIn =>
    simp only [exec, execRdcIn, hsecrets.inp_eq]
    exact h.answer _
  | rdcOut =>
    simp only [exec, execRdcOut, hsecrets.out_eq]
    exact h.answer _
  | rdInvalid off | wrInvalid off _ => exact (h.answer _).raiseEvent _
  | rdcInvalid off | wrcInvalid off _ => exact (h.answer _).raiseIfNoRegister off
  | wrId _ | rdKey _ | rdIv _ | wrOut _ _ | rdCharw _ | wrCharw _ _ | rdcKey | rdcIv | wrcOut _ => exact h.answer _

/-- Every write to `start` among the pending transactions keeps `r`. -/
def StartsKeep (r : Device → Device → Prop) (s : State) : Prop :=
  ∀ a ∈ s.host.pending, ∀ i, decode s.in3 a = .ok i → StartKeeps r i

/-- What is pending after a step was pending before it. -/
theorem StartsKeep.of_step {u : State} (h : StartsKeep r s) (hstep : step s = .next u) : StartsKeep r u := by
  rcases step_next_cases hstep with ⟨-, rfl⟩ | ⟨a, rest, i, hp, -, hexec⟩
  · exact h
  · obtain ⟨hin3, hpending, -⟩ := exec_keeps hexec
    intro b hb
    rw [hpending, takeTransaction_pending] at hb
    rw [hin3, takeTransaction_in3]
    exact h b (hp ▸ List.mem_cons_of_mem a hb)

/-- A step from related states: the same branch is taken in both, since they share `fsm`, the map and the host's side. -/
theorem HiddenFromHost.step_agree (hr : HiddenFromHost r) (h : StatesAgree r s t) (hstarts : StartsKeep r s) :
    OutcomesAgree r (step s) (step t) := by
  have ⟨hdev, hin3, hhost⟩ := h
  unfold step
  rw [← (hr.sameButSecrets hdev).fsm_eq, ← hin3, ← hhost]
  cases s.dev.fsm with
  | computing => rfl
  | idle =>
    cases hp : s.host.pending with
    | nil => exact h
    | cons a rest =>
      cases hd : decode s.in3 a with
      | ok i =>
        simp only [hd]
        exact hr.exec_agree (h.takeTransaction rest) (hstarts a (hp ▸ List.mem_cons_self) i hd)
      | error e =>
        simp only [hd]
        rfl

/-- Runs from related states give back the same and stay related, by induction on the number of steps. -/
theorem HiddenFromHost.runs_agree (hr : HiddenFromHost r) (n : Nat) (h : StatesAgree r s t) (hstarts : StartsKeep r s) :
    OutcomesAgree r (runs n s) (runs n t) := by
  induction n generalizing s t with
  | zero => exact h
  | succ n ih =>
    rcases (hr.step_agree h hstarts).cases with ⟨u, w, hu, hw, huw⟩ | ⟨e, hs, ht⟩
    · rw [runs_succ_of_next hu, runs_succ_of_next hw]
      exact ih huw (hstarts.of_step hu)
    · rw [runs_succ_of_refused hs, runs_succ_of_refused ht]
      rfl

end Runs

end Sys2Proof.Safety

namespace Sys2Proof.Proofs
open Sys2Proof.Machine Sys2Proof.Safety

/-- Settles O7: the model's `takeTransaction` is the state the statement writes out. -/
theorem stepRunsTheDecodedTransaction : Obligations.StepRunsTheDecodedTransaction := by
  unfold Obligations.StepRunsTheDecodedTransaction
  intro s a rest i h hp hd
  exact step_of_decode h hp hd

/-- Settles O31, by the values of `id` and `fsm` at reset. -/
theorem invariantHoldsAtReset : Obligations.InvariantHoldsAtReset := by
  unfold Obligations.InvariantHoldsAtReset
  exact ⟨invariant_resetWith, invariant_resetWith Config.in3Offset .zero⟩

/-- Settles O32: an idle step changes nothing, and every instruction keeps the invariant. -/
theorem stepKeepsTheInvariant : Obligations.StepKeepsTheInvariant := by
  unfold Obligations.StepKeepsTheInvariant
  intro s t hinv hstep
  rcases step_next_cases hstep with ⟨-, rfl⟩ | ⟨a, rest, i, -, -, hexec⟩
  · exact ⟨hinv, rfl⟩
  · obtain ⟨hin3, -⟩ := exec_keeps hexec
    exact ⟨exec_keeps_invariant (s := takeTransaction rest s) hinv hexec, hin3⟩

/-- Settles O34: without a trigger no write to `start` does anything, and no other transaction lets a secret out. -/
theorem keyAndIvStaySecretWithoutATrigger : Obligations.KeyAndIvStaySecretWithoutATrigger := by
  unfold Obligations.KeyAndIvStaySecretWithoutATrigger
  intro n s t hagree hfree
  refine hiddenFromHost_sameButSecrets.runs_agree n hagree ?_
  intro a ha i hd
  exact startKeeps_of_zero fun v hi => hfree a ha v (hi ▸ hd)

/-- Settles O35: no transaction reads a side record, a trigger's operation included. -/
theorem sideRecordsAreUnobservable : Obligations.SideRecordsAreUnobservable := by
  unfold Obligations.SideRecordsAreUnobservable
  intro n s t hagree
  exact hiddenFromHost_sameButRecords.runs_agree n hagree fun _ _ i _ => startKeeps_sameButRecords i

end Sys2Proof.Proofs
end

section
/-! PROOFS. The register map and the transactions' effects (20_memory.md R62 to R72, R80): the map is exact for either value
of `IN3_OFFSET`, what each kind of access does to the register at its offset, and the orders in which transactions apply. -/

namespace Sys2Proof

/-! ### The register map -/

/-- Every row of the map agrees with the formulas the encoder uses (R62). -/
theorem registerMap_row (m : In3Offset) :
    ∀ row ∈ registerMap m, row.off = offsetOf m row.reg ∧ row.attr = attributeOf row.reg := by
  cases m <;> decide

/-- The map holds every register of either view at its offset. -/
theorem regAt_offsetOf (m : In3Offset) (r : RegName) : regAt m (offsetOf m r) = some r := by
  cases r with
  | word r => exact regAt_regOffset m r
  | char c => exact regAt_charOffset m c

/-- Decoding an offset is exact (R64): a row that is found has the offset that was sought, and its own register's. -/
theorem regAt_eq_some_iff {m : In3Offset} {off : Offset} {r : RegName} :
    regAt m off = some r ↔ off = offsetOf m r := by
  constructor
  · intro h
    obtain ⟨row, hfind, rfl⟩ := Option.map_eq_some_iff.1 h
    have hoff : row.off = off := by simpa using List.find?_some hfind
    rw [← hoff]
    exact (registerMap_row m row (List.mem_of_find?_eq_some hfind)).1
  · rintro rfl
    exact regAt_offsetOf m r

/-- `IN3_OFFSET` is the offset of `in_3` alone (R63). -/
theorem offsetOf_eq_of_ne_in3 (m m' : In3Offset) {r : RegName} (h : r ≠ .word (.inp 3)) :
    offsetOf m r = offsetOf m' r := by
  cases r with
  | char c => rfl
  | word r =>
    cases r with
    | inp i =>
      have hi : i ≠ 3 := fun e => h (by rw [e])
      simp only [offsetOf, regOffset, if_neg hi]
    | _ => rfl

/-- An offset that is `in_3`'s on neither map selects the same on both (R63). -/
theorem regAt_uniform_eq_literal {off : Offset} (h100 : off ≠ 0x100) (h0A0 : off ≠ 0x0A0) :
    regAt .uniform off = regAt .literal off := by
  ext r
  rw [regAt_eq_some_iff, regAt_eq_some_iff]
  by_cases hr : r = .word (.inp 3)
  · subst hr
    exact iff_of_false h0A0 h100
  · rw [offsetOf_eq_of_ne_in3 .uniform .literal hr]

/-! ### What an access at a register's offset decodes to, view by view -/

/-- A word access at a char register's offset (R93, R228, R229). -/
theorem decodeWordRead_charOffset (m : In3Offset) (c : CharReg) : decodeWordRead m (charOffset c) = .rdCharw c := by
  simp only [decodeWordRead, regAt_charOffset]

theorem decodeWordWrite_charOffset (m : In3Offset) (c : CharReg) (v : Word) :
    decodeWordWrite m (charOffset c) v = .wrCharw c v := by
  simp only [decodeWordWrite, regAt_charOffset]

/-- A char access at a word register's offset (R93, R270, R271). -/
theorem decodeCharRead_regOffset (m : In3Offset) (r : Reg) :
    decodeCharRead m (regOffset m r) = .rdcInvalid (regOffset m r) := by
  simp only [decodeCharRead, regAt_regOffset]

theorem decodeCharWrite_regOffset (m : In3Offset) (r : Reg) (p : List Byte) :
    decodeCharWrite m (regOffset m r) p = .wrcInvalid (regOffset m r) p := by
  simp only [decodeCharWrite, regAt_regOffset]

/-- A word access of a width the interface does not have decodes to nothing (R65). -/
theorem decode_of_accessSize_ne (m : In3Offset) {a : Access} (h : accessSize a ≠ 4) :
    decode m a = .error (.unsupportedWidth (accessSize a)) := by
  rw [decode, if_neg h]

/-- The direction bit of an encoded instruction is the instruction's own (30_encoding.md R91, R93). -/
theorem descriptorDir_encodeDescriptor (m : In3Offset) (i : Instr) :
    descriptorDir (encodeDescriptor m i) = (Laws.EncodedKind.bits i).1 := by
  cases i <;> exact descriptorDir_mkDescriptor _ _ _

end Sys2Proof

namespace Sys2Proof.Machine

open Sys2Proof.Safety

/-! ### Reads -/

/-- A stored register is read from the device alone. -/
theorem readStored_eq (q : Reg) {s u : State} (hdev : u.dev = s.dev) :
    readStored q u = .next { u with host := answered u (.word (readReg s.dev q)) none } := by
  rw [← hdev]
  rfl

/-- A read changes nothing but what it gives back and raises, and both of these depend on the device and the map alone
(20_memory.md R70). -/
theorem exec_of_read {m : In3Offset} {i : Instr} (hread : descriptorDir (encodeDescriptor m i) = false) (s : State) :
    ∃ r e, ∀ u : State, u.dev = s.dev → u.in3 = s.in3 → exec i u = .next { u with host := answered u r e } := by
  rw [descriptorDir_encodeDescriptor] at hread
  cases i with
  | rdId | rdMode | rdFormat | rdStart | rdValid | rdIn _ | rdOut _ =>
    exact ⟨_, _, fun u hdev _ => readStored_eq _ hdev⟩
  | rdcIn => exact ⟨.text (render s.dev.inp), none, fun u hdev _ => hdev ▸ rfl⟩
  | rdcOut => exact ⟨.text (render s.dev.out), none, fun u hdev _ => hdev ▸ rfl⟩
  | rdKey _ | rdIv _ | rdCharw _ => exact ⟨.word Config.sentinel, none, fun _ _ _ => rfl⟩
  | rdInvalid off => exact ⟨.word Config.sentinel, some (.invalidRegisterOffset off), fun _ _ _ => rfl⟩
  | rdcKey | rdcIv => exact ⟨.text [], none, fun _ _ _ => rfl⟩
  | rdcInvalid off =>
    refine ⟨.text [], if noRegister s.in3 off then some (.invalidRegisterOffset off) else none, fun u _ hin3 => ?_⟩
    rw [← hin3]
    exact congrArg _ (raiseIfNoRegister_eq off (answer (.text []) u) rfl)
  | _ => cases hread

/-! ### Word writes -/

/-- A word write at a register's offset, `start` apart: dropped if the register is read-only, else stored (R62). -/
theorem exec_decodeWordWrite_regOffset (m : In3Offset) {r : Reg} (hr : r ≠ .start) (v : Word) (s : State) :
    exec (decodeWordWrite m (regOffset m r) v) s =
      if attributeOf (.word r) = .ro then ignoreWrite s else storeWord r v s := by
  rw [decodeWordWrite_regOffset]
  cases r with
  | start => exact absurd rfl hr
  | _ => rfl

/-- A triggering write to `start` runs one operation (44_device_operation.md R190, R192; 45_word_access.md R217). -/
theorem writeStart_of_ne_zero (d : Device) {v : Word} (hv : v ≠ 0) : writeStart d v = operated d v := by
  rcases writeStart_cases d v with ⟨h, -⟩ | ⟨-, h⟩
  · exact absurd h hv
  · exact h

/-! ### The access attributes -/

/-- A word write at a read-only register's offset leaves the device as it is. -/
theorem exec_wordWrite_readOnly (m : In3Offset) {r : RegName} (hr : attributeOf r = .ro) (v : Word) (s : State) :
    exec (decodeWordWrite m (offsetOf m r) v) s = ignoreWrite s := by
  cases r with
  | word q =>
    have hq : q ≠ .start := by rintro rfl; cases hr
    exact (exec_decodeWordWrite_regOffset m hq v s).trans (if_pos hr)
  | char c => rw [offsetOf, decodeWordWrite_charOffset]; rfl

/-- A char write at a read-only register's offset leaves the device as it is: `out_char` drops it, a word register is not
of this view (46_char_access.md R265, R271). -/
theorem exec_charWrite_readOnly (m : In3Offset) {r : RegName} (hr : attributeOf r = .ro) (p : List Byte) (s : State) :
    ∃ t, exec (decodeCharWrite m (offsetOf m r) p) s = .next t ∧ t.dev = s.dev := by
  cases r with
  | word q =>
    rw [offsetOf, decodeCharWrite_regOffset]
    exact ⟨_, rfl, raiseIfNoRegister_dev _ _⟩
  | char c =>
    cases c with
    | outChar =>
      simp only [offsetOf, decodeCharWrite, regAt_charOffset]
      exact ⟨_, rfl, rfl⟩
    | _ => cases hr

/-- A word read at a write-only register's offset gives `SENTINEL` (45_word_access.md R220, R222, R228). -/
theorem exec_wordRead_writeOnly (m : In3Offset) {r : RegName} (hr : attributeOf r = .wo) (s : State) :
    exec (decodeWordRead m (offsetOf m r)) s = readSentinel s := by
  cases r with
  | word q =>
    rw [offsetOf, decodeWordRead_regOffset]
    cases q with
    | key _ | iv _ => rfl
    | _ => cases hr
  | char c => rw [offsetOf, decodeWordRead_charOffset]; rfl

/-- A char read at a write-only register's offset gives the empty string (46_char_access.md R266, R267, R270). -/
theorem exec_charRead_writeOnly (m : In3Offset) {r : RegName} (hr : attributeOf r = .wo) (s : State) :
    ∃ t, exec (decodeCharRead m (offsetOf m r)) s = .next t ∧ t.host.result = .text [] := by
  cases r with
  | word q =>
    rw [offsetOf, decodeCharRead_regOffset]
    exact ⟨_, rfl, raiseIfNoRegister_result _ _⟩
  | char c =>
    cases c with
    | keyChar | ivChar =>
      simp only [offsetOf, decodeCharRead, regAt_charOffset]
      exact ⟨_, rfl, rfl⟩
    | _ => cases hr

/-! ### Transactions in their order -/

section

variable {n : Nat} {s : State} {rest : List Access}

/-- A run whose next transaction is a word write to a register that stores it, `start` apart. -/
theorem runs_succ_of_storedWrite {r : Reg} {v : Word} (hr : r ≠ .start) (hro : attributeOf (.word r) ≠ .ro)
    (h : s.dev.fsm = .idle) (hp : s.host.pending = .memWrite (regOffset s.in3 r) 4 v :: rest) :
    runs (n + 1) s = runs n (answer .nothing (withDevice (takeTransaction rest s) (writeReg s.dev r v))) :=
  runs_succ_of_exec h hp (decode_memWrite s.in3 _ v)
    ((exec_decodeWordWrite_regOffset s.in3 hr v _).trans (if_neg hro))

/-- A run whose next transaction triggers an operation. -/
theorem runs_succ_of_trigger {v : Word} (hv : v ≠ 0) (h : s.dev.fsm = .idle)
    (hp : s.host.pending = .memWrite (regOffset s.in3 .start) 4 v :: rest) :
    runs (n + 1) s = runs n (answer .nothing (withDevice (takeTransaction rest s) (operated s.dev v))) := by
  rw [← writeStart_of_ne_zero s.dev hv]
  exact runs_succ_of_exec h hp (decode_memWrite s.in3 _ v) (by rw [decodeWordWrite_regOffset]; rfl)

/-- A run whose next transaction reads an output word. -/
theorem runs_succ_of_rdOut {j : Fin 4} (h : s.dev.fsm = .idle)
    (hp : s.host.pending = .memRead (regOffset s.in3 (.out j)) 4 :: rest) :
    runs (n + 1) s = runs n (answer (.word (s.dev.out.get j)) (takeTransaction rest s)) :=
  runs_succ_of_exec h hp (decode_memRead s.in3 _) (by rw [decodeWordRead_regOffset]; rfl)

end

/-- From a legal state the next pending transaction is applied, and the state stays legal (20_memory.md R69, R71). -/
theorem step_of_legal {s : State} (h : Legal s) {a : Access} {rest : List Access} (hp : s.host.pending = a :: rest) :
    ∃ t, step s = .next t ∧ Legal t ∧ t.host.pending = rest ∧ t.host.position = s.host.position + 1 := by
  obtain ⟨hidle, hsize⟩ := h
  rw [hp] at hsize
  have hd : decode s.in3 a = .ok _ := if_pos (hsize a List.mem_cons_self)
  obtain ⟨t, hexec, -, hpending, hposition, -, hfsm⟩ := exec_next _ (takeTransaction rest s)
  refine ⟨t, (step_of_decode hidle hp hd).trans hexec, ⟨hfsm hidle, ?_⟩, hpending, hposition⟩
  rw [hpending]
  exact fun b hb => hsize b (List.mem_cons_of_mem a hb)

/-- A run of as many steps as there are pending transactions applies them all. -/
theorem runs_all_pending {s : State} (h : Legal s) :
    ∃ t, runs s.host.pending.length s = .next t ∧ t.host.pending = [] ∧
      t.host.position = s.host.position + s.host.pending.length := by
  induction hp : s.host.pending generalizing s with
  | nil => exact ⟨s, rfl, hp, rfl⟩
  | cons a rest ih =>
    obtain ⟨u, hstep, hlegal, hpending, hposition⟩ := step_of_legal h hp
    obtain ⟨t, hruns, hdone, hcount⟩ := ih hlegal hpending
    refine ⟨t, (runs_succ_of_next hstep).trans hruns, hdone, ?_⟩
    rw [hcount, hposition, List.length_cons]
    omega

end Sys2Proof.Machine

namespace Sys2Proof.Safety

/-! ### Interleavings -/

/-- An interleaving keeps each caller's own order (20_memory.md R71). -/
theorem Interleaves.sublist {qs : List (List Access)} {as : List Access} (h : Interleaves qs as) :
    ∀ q ∈ qs, q.Sublist as := by
  induction h with
  | done qs hempty =>
    intro q hq
    rw [hempty q hq]
  | take qs c hc a rest as hhead _ ih =>
    intro q hq
    obtain ⟨k, hk, rfl⟩ := List.mem_iff_getElem.1 hq
    by_cases hkc : c = k
    · subst hkc
      rw [hhead]
      exact (ih rest (List.mem_set hc rest)).cons_cons a
    · have hkept : qs[k] ∈ qs.set c rest :=
        List.mem_iff_getElem.2 ⟨k, by simpa using hk, List.getElem_set_ne hkc _⟩
      exact (ih _ hkept).cons a

/-- An interleaving holds the transactions of all callers, each as often as they issue it, and no other (20_memory.md R71). -/
theorem Interleaves.perm_flatten {qs : List (List Access)} {as : List Access} (h : Interleaves qs as) :
    as.Perm qs.flatten := by
  induction h with
  | done qs hempty => rw [List.flatten_eq_nil_iff.2 hempty]
  | take qs c hc a rest as hhead _ ih =>
    have hset : qs.set c rest = qs.take c ++ rest :: qs.drop (c + 1) := by
      rw [List.set_eq_take_append_cons_drop, if_pos hc]
    have hqs : qs = qs.take c ++ (a :: rest) :: qs.drop (c + 1) := by
      rw [← hhead, List.getElem_cons_drop, List.take_append_drop]
    rw [hset, List.flatten_append, List.flatten_cons] at ih
    rw [hqs, List.flatten_append, List.flatten_cons]
    exact (ih.cons a).trans List.perm_middle.symm

end Sys2Proof.Safety

namespace Sys2Proof.Proofs
open Sys2Proof.Machine Sys2Proof.Safety

/-- Settles O5: a row found is its register's, and every register has its row. -/
theorem registerMapIsExact : Obligations.RegisterMapIsExact := by
  unfold Obligations.RegisterMapIsExact
  exact ⟨fun _ _ _ => regAt_eq_some_iff, registerMap_row, fun _ => rfl⟩

/-- Settles O6: the two maps differ in the offset of `in_3` alone, and decoding is exact on both. -/
theorem alternativeIn3OffsetMovesOneRegister : Obligations.AlternativeIn3OffsetMovesOneRegister := by
  unfold Obligations.AlternativeIn3OffsetMovesOneRegister
  intro off
  split_ifs with h100 h0A0
  · subst h100
    decide
  · exact regAt_eq_some_iff.2 h0A0
  · exact regAt_uniform_eq_literal h100 h0A0

/-- Settles O8, by the branches of `step` and the width the decoder refuses. -/
theorem stepsThatRunNoInstruction : Obligations.StepsThatRunNoInstruction := by
  unfold Obligations.StepsThatRunNoInstruction
  refine ⟨?width, ?computing, ?nothingPending⟩
  case width =>
    intro s a rest hidle hp hsize
    simp only [step, hidle, hp, decode_of_accessSize_ne s.in3 hsize]
  case computing =>
    intro s hbusy
    simp only [step, hbusy]
  case nothingPending =>
    intro s hidle hp
    simp only [step, hidle, hp]

/-- Settles O23: a read gives back and raises what the device and the map say, and it changes neither. -/
theorem readsLeaveTheDeviceUnchanged : Obligations.ReadsLeaveTheDeviceUnchanged := by
  unfold Obligations.ReadsLeaveTheDeviceUnchanged
  intro m i s hread
  obtain ⟨r, e, hexec⟩ := exec_of_read hread s
  exact ⟨_, hexec s rfl rfl, rfl, rfl, rfl, rfl, hexec { s with host := answered s r e } rfl rfl⟩

/-- Settles O24: the write is dropped at a read-only register and stored in any other, and a store touches one register. -/
theorem wordWriteTouchesOneRegister : Obligations.WordWriteTouchesOneRegister := by
  unfold Obligations.WordWriteTouchesOneRegister
  intro s r v hr
  have hexec := exec_decodeWordWrite_regOffset s.in3 hr v s
  by_cases hro : attributeOf (.word r) = .ro
  · rw [if_pos hro] at hexec
    exact ⟨_, _, decode_memWrite s.in3 _ v, hexec, by rw [if_pos hro]; rfl, fun _ _ => rfl, rfl, rfl, rfl, rfl⟩
  · rw [if_neg hro] at hexec
    exact ⟨_, _, decode_memWrite s.in3 _ v, hexec, by rw [if_neg hro]; exact readReg_writeReg_same s.dev r v,
      fun q hq => readReg_writeReg_other s.dev r q v hq, writeReg_keeps_rest s.dev r v⟩

/-- Settles O25, by the view of the access and the view of the register. -/
theorem attributesProtectRegisters : Obligations.AttributesProtectRegisters := by
  unfold Obligations.AttributesProtectRegisters
  intro s r v p
  constructor
  · intro hro
    obtain ⟨u, hexec, hdev⟩ := exec_charWrite_readOnly s.in3 hro p s
    exact ⟨_, _, _, u, decode_memWrite s.in3 _ v, exec_wordWrite_readOnly s.in3 hro v s, rfl,
      decode_charWrite s.in3 _ p, hexec, hdev⟩
  · intro hwo
    obtain ⟨u, hexec, hresult⟩ := exec_charRead_writeOnly s.in3 hwo s
    exact ⟨_, _, _, u, decode_memRead s.in3 _, exec_wordRead_writeOnly s.in3 hwo s, rfl,
      decode_charRead s.in3 _, hexec, hresult⟩

/-- Settles O28: the three transactions one after the other, each from the state the one before it leaves. -/
theorem writeThenTriggerThenRead : Obligations.WriteThenTriggerThenRead := by
  unfold Obligations.WriteThenTriggerThenRead
  intro s i v w j rest hidle hw hp
  rw [runs_succ_of_storedWrite (r := .inp i) nofun nofun hidle hp, runs_succ_of_trigger hw ?idle ?trigger,
    runs_succ_of_rdOut ?done ?read]
  case idle => exact hidle
  case trigger | done | read => rfl
  exact ⟨_, rfl, rfl, rfl, rfl⟩

/-- Settles O37: an interleaving is legal where the callers' sequences are, and a legal run applies all that is pending. -/
theorem interleavedCallersAreAllServed : Obligations.InterleavedCallersAreAllServed := by
  unfold Obligations.InterleavedCallersAreAllServed
  intro qs as s hinter hsize hidle hp
  have hpending : (issue as s).host.pending = as := by rw [issue_pending, hp, List.nil_append]
  have hlegal : Legal (issue as s) := by
    refine ⟨hidle, fun a ha => ?_⟩
    rw [hpending] at ha
    obtain ⟨q, hq, haq⟩ := List.mem_flatten.1 (hinter.perm_flatten.mem_iff.1 ha)
    exact hsize q hq a haq
  have hruns := runs_all_pending hlegal
  rw [hpending] at hruns
  exact ⟨hinter.sublist, hinter.perm_flatten.length_eq.trans List.length_flatten, hruns⟩

end Sys2Proof.Proofs
end

section
/-! PROOFS. The encoding of transactions (30_encoding.md R91 to R99): decode and encode are inverse in both directions,
view by view, and the pseudo-instructions of R98 run as one use of the device. -/

namespace Sys2Proof

open Sys2Proof.Safety

/-! ### Offsets that select nothing in a view -/

theorem noRegister_iff {m : In3Offset} {off : Offset} : noRegister m off = true ↔ regAt m off = none :=
  Option.isNone_iff_eq_none

theorem noCharRegister_iff {m : In3Offset} {off : Offset} :
    noCharRegister m off = true ↔ ∀ c, regAt m off ≠ some (.char c) := by
  unfold noCharRegister
  rcases regAt m off with - | (r | c) <;> simp

section

variable {m : In3Offset} {off : Offset}

theorem decodeWordRead_of_noRegister (h : noRegister m off = true) : decodeWordRead m off = .rdInvalid off := by
  simp only [decodeWordRead, noRegister_iff.1 h]

theorem decodeWordWrite_of_noRegister (h : noRegister m off = true) (v : Word) :
    decodeWordWrite m off v = .wrInvalid off v := by
  simp only [decodeWordWrite, noRegister_iff.1 h]

theorem decodeCharRead_of_noCharRegister (h : noCharRegister m off = true) :
    decodeCharRead m off = .rdcInvalid off := by
  rw [noCharRegister_iff] at h
  unfold decodeCharRead
  rcases hr : regAt m off with - | (r | c)
  · rfl
  · rfl
  · exact absurd hr (h c)

theorem decodeCharWrite_of_noCharRegister (h : noCharRegister m off = true) (p : List Byte) :
    decodeCharWrite m off p = .wrcInvalid off p := by
  rw [noCharRegister_iff] at h
  unfold decodeCharWrite
  rcases hr : regAt m off with - | (r | c)
  · rfl
  · rfl
  · exact absurd hr (h c)

end

/-! ### Decoding what was encoded -/

/-- Decoding an encoded operation gives it back: an operation on a register stands at that register's offset, and an
invalid-offset operation at an offset that selects nothing in its view (R91 to R93). -/
theorem decode_encode {m : In3Offset} {i : Instr} (h : i.wf m = true) : decode m (encode m i) = .ok i := by
  cases i with
  | rdId | rdMode | rdFormat | rdStart | rdValid | rdKey _ | rdIv _ | rdIn _ | rdOut _ =>
    rw [encode, decode_memRead, decodeWordRead_regOffset]
  | wrId _ | wrMode _ | wrFormat _ | wrStart _ | wrValid _ | wrKey _ _ | wrIv _ _ | wrIn _ _ | wrOut _ _ =>
    rw [encode, decode_memWrite, decodeWordWrite_regOffset]
  | rdCharw c => rw [encode, decode_memRead, decodeWordRead_charOffset]
  | wrCharw c v => rw [encode, decode_memWrite, decodeWordWrite_charOffset]
  | rdcKey | rdcIv | rdcIn | rdcOut =>
    simp only [encode, decode_charRead, decodeCharRead, regAt_charOffset]
  | wrcKey _ | wrcIv _ | wrcIn _ | wrcOut _ =>
    simp only [encode, decode_charWrite, decodeCharWrite, regAt_charOffset]
  | rdInvalid off => rw [encode, decode_memRead, decodeWordRead_of_noRegister h]
  | wrInvalid off v => rw [encode, decode_memWrite, decodeWordWrite_of_noRegister h]
  | rdcInvalid off => rw [encode, decode_charRead, decodeCharRead_of_noCharRegister h]
  | wrcInvalid off p => rw [encode, decode_charWrite, decodeCharWrite_of_noCharRegister h]

/-! ### Encoding what was decoded -/

/-- The operation `i` stands for the access `a` and for no other (R93). -/
def Canonical (m : In3Offset) (i : Instr) (a : Access) : Prop := i.wf m = true ∧ encode m i = a

/-- An offset stands for a register of the word view, for one of the char view, or for none, in which case it is invalid
in both views (R64, R93). -/
theorem offset_cases (m : In3Offset) (off : Offset) :
    (∃ r, off = regOffset m r) ∨ (∃ c, off = charOffset c) ∨ noRegister m off = true := by
  rcases hr : regAt m off with - | (r | c)
  · exact .inr (.inr (noRegister_iff.2 hr))
  · exact .inl ⟨r, regAt_eq_some_iff.1 hr⟩
  · exact .inr (.inl ⟨c, regAt_eq_some_iff.1 hr⟩)

/-- The char view has no register at a word register's offset, nor at an offset of no register at all. -/
theorem charOffset_or_noCharRegister (m : In3Offset) (off : Offset) :
    (∃ c, off = charOffset c) ∨ noCharRegister m off = true := by
  by_cases h : ∃ c, off = charOffset c
  · exact .inl h
  · exact .inr (noCharRegister_iff.2 fun c hc => h ⟨c, regAt_eq_some_iff.1 hc⟩)

theorem canonical_decodeWordRead (m : In3Offset) (off : Offset) :
    Canonical m (decodeWordRead m off) (.memRead off 4) := by
  rcases offset_cases m off with ⟨r, rfl⟩ | ⟨c, rfl⟩ | h
  · rw [decodeWordRead_regOffset]
    cases r <;> exact ⟨rfl, rfl⟩
  · rw [decodeWordRead_charOffset]
    exact ⟨rfl, rfl⟩
  · rw [decodeWordRead_of_noRegister h]
    exact ⟨h, rfl⟩

theorem canonical_decodeWordWrite (m : In3Offset) (off : Offset) (v : Word) :
    Canonical m (decodeWordWrite m off v) (.memWrite off 4 v) := by
  rcases offset_cases m off with ⟨r, rfl⟩ | ⟨c, rfl⟩ | h
  · rw [decodeWordWrite_regOffset]
    cases r <;> exact ⟨rfl, rfl⟩
  · rw [decodeWordWrite_charOffset]
    exact ⟨rfl, rfl⟩
  · rw [decodeWordWrite_of_noRegister h]
    exact ⟨h, rfl⟩

theorem canonical_decodeCharRead (m : In3Offset) (off : Offset) :
    Canonical m (decodeCharRead m off) (.charRead off) := by
  rcases charOffset_or_noCharRegister m off with ⟨c, rfl⟩ | h
  · simp only [decodeCharRead, regAt_charOffset]
    cases c <;> exact ⟨rfl, rfl⟩
  · rw [decodeCharRead_of_noCharRegister h]
    exact ⟨h, rfl⟩

theorem canonical_decodeCharWrite (m : In3Offset) (off : Offset) (p : List Byte) :
    Canonical m (decodeCharWrite m off p) (.charWrite off p) := by
  rcases charOffset_or_noCharRegister m off with ⟨c, rfl⟩ | h
  · simp only [decodeCharWrite, regAt_charOffset]
    cases c <;> exact ⟨rfl, rfl⟩
  · rw [decodeCharWrite_of_noCharRegister h]
    exact ⟨h, rfl⟩

/-- Only accesses of the width the interface has decode (20_memory.md R65). -/
theorem accessSize_of_decode {m : In3Offset} {a : Access} {i : Instr} (h : decode m a = .ok i) : accessSize a = 4 := by
  by_contra hsize
  rw [decode_of_accessSize_ne m hsize] at h
  cases h

/-- Every access of that width decodes to the operation that stands for it (R91 to R93). -/
theorem exists_decode_canonical (m : In3Offset) {a : Access} (h : accessSize a = 4) :
    ∃ i, decode m a = .ok i ∧ Canonical m i a := by
  cases a with
  | memRead off size =>
    obtain rfl : size = 4 := h
    exact ⟨_, decode_memRead m off, canonical_decodeWordRead m off⟩
  | memWrite off size v =>
    obtain rfl : size = 4 := h
    exact ⟨_, decode_memWrite m off v, canonical_decodeWordWrite m off v⟩
  | charRead off => exact ⟨_, decode_charRead m off, canonical_decodeCharRead m off⟩
  | charWrite off p => exact ⟨_, decode_charWrite m off p, canonical_decodeCharWrite m off p⟩

theorem canonical_of_decode {m : In3Offset} {a : Access} {i : Instr} (h : decode m a = .ok i) : Canonical m i a := by
  obtain ⟨j, hj, hcanonical⟩ := exists_decode_canonical m (accessSize_of_decode h)
  rw [h] at hj
  cases hj
  exact hcanonical

/-- An operation has one descriptor: the one that any descriptor decoding to it must be (R93). -/
theorem encodeDescriptor_of_decodes {m : In3Offset} {t : Descriptor} {v : Word} {p : List Byte} {i : Instr}
    (h : Decodes m t v p i) : encodeDescriptor m i = t := by
  obtain ⟨-, hencode⟩ := canonical_of_decode h
  rw [encodeDescriptor, hencode, accessDescriptor_accessOfDescriptor]

end Sys2Proof

namespace Sys2Proof.Machine

open Sys2Proof.Safety

/-! ### Word writes one after the other -/

/-- The device after `x[r] <- v` for each pair of the list, in order (00_scope.md R13). -/
def writeRegs (ws : List (Reg × Word)) (d : Device) : Device := ws.foldl (fun d w => writeReg d w.1 w.2) d

/-- The word writes that a host issues for such a list (30_encoding.md R97). -/
def wordWrites (m : In3Offset) (ws : List (Reg × Word)) : List Access := ws.map fun w => .memWrite (regOffset m w.1) 4 w.2

/-- A word write to the register is a plain store: it is neither dropped nor a trigger (20_memory.md R62). -/
def IsStored (r : Reg) : Prop := r ≠ .start ∧ attributeOf (.word r) ≠ .ro

theorem writeReg_fsm (d : Device) (r : Reg) (v : Word) : (writeReg d r v).fsm = d.fsm := by
  obtain ⟨-, -, -, hfsm⟩ := writeReg_keeps_rest d r v
  exact hfsm

/-- A run whose next transactions are word writes to registers that store them (20_memory.md R69, R71). -/
theorem runs_add_of_wordWrites {ws : List (Reg × Word)} (hws : ∀ w ∈ ws, IsStored w.1) {s : State} {rest : List Access}
    (n : Nat) (h : s.dev.fsm = .idle) (hp : s.host.pending = wordWrites s.in3 ws ++ rest) :
    ∃ t, runs (n + ws.length) s = runs n t ∧ t.dev = writeRegs ws s.dev ∧ t.in3 = s.in3 ∧ t.host.pending = rest ∧
      t.host.position = s.host.position + ws.length := by
  induction ws generalizing s with
  | nil => exact ⟨s, rfl, rfl, rfl, hp, rfl⟩
  | cons w ws ih =>
    obtain ⟨⟨hstart, hro⟩, hws⟩ := List.forall_mem_cons.1 hws
    have hruns := runs_succ_of_storedWrite (n := n + ws.length) hstart hro h hp
    obtain ⟨t, ht, hdev, hin3, hpending, hposition⟩ :=
      ih hws (s := answer .nothing (withDevice (takeTransaction (wordWrites s.in3 ws ++ rest) s) (writeReg s.dev w.1 w.2)))
        ((writeReg_fsm s.dev w.1 w.2).trans h) rfl
    refine ⟨t, hruns.trans ht, hdev, hin3, hpending, hposition.trans ?_⟩
    simp only [answer_position, withDevice_host, takeTransaction_position, List.length_cons]
    omega

/-! ### Writing all words of an array of registers -/

/-- One write for each word of an array of registers, index 0 first. -/
def arrayWrites {n : Nat} (r : Fin n → Reg) (ws : Vector Word n) : List (Reg × Word) :=
  (List.finRange n).map fun i => (r i, ws.get i)

theorem forall_mem_arrayWrites {n : Nat} {r : Fin n → Reg} (h : ∀ i, IsStored (r i)) (ws : Vector Word n) :
    ∀ w ∈ arrayWrites r ws, IsStored w.1 :=
  List.forall_mem_map.2 fun i _ => h i

/-- Setting each index of a list to the word of `ws` there leaves `ws` at those indexes. -/
theorem getElem_foldl_set {n : Nat} (ws : Vector Word n) (l : List (Fin n)) (x : Vector Word n) (j : Fin n) :
    (l.foldl (fun y i => y.set i.val (ws.get i) i.isLt) x)[j.val] = if j ∈ l then ws[j.val] else x[j.val] := by
  induction l generalizing x with
  | nil => rfl
  | cons i l ih =>
    rw [List.foldl_cons, ih, Vector.getElem_set]
    by_cases hji : j = i
    · simp [hji, Vector.get_eq_getElem]
    · have hval : ¬ i.val = j.val := fun e => hji (Fin.ext e.symm)
      simp [hji, hval]

/-- Once all its words are written, an array of registers holds just those. -/
theorem writeRegs_arrayWrites {n : Nat} {r : Fin n → Reg} {put : Vector Word n → Device}
    (hput : ∀ x i v, writeReg (put x) (r i) v = put (x.set i.val v i.isLt)) (ws x : Vector Word n) :
    writeRegs (arrayWrites r ws) (put x) = put ws := by
  have hall : (List.finRange n).foldl (fun y i => y.set i.val (ws.get i) i.isLt) x = ws := by
    ext j hj
    rw [getElem_foldl_set ws _ x ⟨j, hj⟩, if_pos (List.mem_finRange _)]
  rw [writeRegs, arrayWrites, List.foldl_map]
  exact (List.foldl_hom put fun y i => hput y i (ws.get i)).trans (congrArg put hall)

theorem writeRegs_key (ws : Vector Word 8) (d : Device) : writeRegs (arrayWrites .key ws) d = { d with key := ws } :=
  writeRegs_arrayWrites (put := fun x => { d with key := x }) (fun _ _ _ => rfl) ws d.key

theorem writeRegs_iv (ws : Vector Word 4) (d : Device) : writeRegs (arrayWrites .iv ws) d = { d with iv := ws } :=
  writeRegs_arrayWrites (put := fun x => { d with iv := x }) (fun _ _ _ => rfl) ws d.iv

theorem writeRegs_inp (ws : Vector Word 4) (d : Device) : writeRegs (arrayWrites .inp ws) d = { d with inp := ws } :=
  writeRegs_arrayWrites (put := fun x => { d with inp := x }) (fun _ _ _ => rfl) ws d.inp

theorem writeRegs_append (ws ws' : List (Reg × Word)) (d : Device) :
    writeRegs (ws ++ ws') d = writeRegs ws' (writeRegs ws d) :=
  List.foldl_append

/-! ### The pseudo-instructions as one use of the device -/

/-- The eight words of a key, as `setkey` writes them (30_encoding.md R98; 20_memory.md R66). -/
def wordsOfKey (k : Key) : Vector Word 8 :=
  #v[wordOfQuad k.lo.c0, wordOfQuad k.lo.c1, wordOfQuad k.lo.c2, wordOfQuad k.lo.c3,
     wordOfQuad k.hi.c0, wordOfQuad k.hi.c1, wordOfQuad k.hi.c2, wordOfQuad k.hi.c3]

@[simp] theorem keyOfWords_wordsOfKey (k : Key) : keyOfWords (wordsOfKey k) = k := by
  simp [keyOfWords, wordsOfKey, Vector.get_eq_getElem]

/-- What `setkey`, `setiv`, `setin` and `run` store before the trigger. -/
def setUpWrites (k : Key) (v b : Block) (m f : Word) : List (Reg × Word) :=
  arrayWrites .key (wordsOfKey k) ++ arrayWrites .iv (wordsOfBlock v) ++ arrayWrites .inp (wordsOfBlock b) ++
    [(.mode, m), (.format, f)]

/-- The expansions of R98 are these writes and then the trigger. -/
theorem assemble_setUp (x : In3Offset) (k : Key) (v b : Block) (m f : Word) :
    assemble x (pseudoSetKey k ++ pseudoSetIv v ++ pseudoSetIn b ++ pseudoRun m f) =
      wordWrites x (setUpWrites k v b m f) ++ [.memWrite (regOffset x .start) 4 1] := rfl

theorem isStored_setUpWrites (k : Key) (v b : Block) (m f : Word) : ∀ w ∈ setUpWrites k v b m f, IsStored w.1 := by
  simp only [setUpWrites, List.forall_mem_append]
  refine ⟨⟨⟨forall_mem_arrayWrites ?_ _, forall_mem_arrayWrites ?_ _⟩, forall_mem_arrayWrites ?_ _⟩, ?_⟩
  · exact fun _ => ⟨nofun, nofun⟩
  · exact fun _ => ⟨nofun, nofun⟩
  · exact fun _ => ⟨nofun, nofun⟩
  · exact List.forall_mem_cons.2 ⟨⟨nofun, nofun⟩, List.forall_mem_singleton.2 ⟨nofun, nofun⟩⟩

theorem writeRegs_setUpWrites (k : Key) (v b : Block) (m f : Word) (d : Device) :
    writeRegs (setUpWrites k v b m f) d =
      { d with key := wordsOfKey k, iv := wordsOfBlock v, inp := wordsOfBlock b, mode := m, format := f } := by
  rw [setUpWrites, writeRegs_append, writeRegs_append, writeRegs_append, writeRegs_key, writeRegs_iv, writeRegs_inp]
  rfl

/-- The operands written are the ones an operation latches (44_device_operation.md R191). -/
theorem out_operated_setUp (k : Key) (v b : Block) (m f w : Word) (d : Device) :
    (operated (writeRegs (setUpWrites k v b m f) d) w).out = wordsOfBlock (engineRun m f k v b) := by
  rw [writeRegs_setUpWrites]
  simp only [operated, keyOfWords_wordsOfKey, blockOfWords_wordsOfBlock]

/-- The whole use of the device: the operands are stored, then one operation runs on them (R98; 44_device_operation.md
R190). -/
theorem runs_setUp (k : Key) (v b : Block) (m f : Word) {s : State} (h : s.dev.fsm = .idle)
    (hp : s.host.pending = assemble s.in3 (pseudoSetKey k ++ pseudoSetIv v ++ pseudoSetIn b ++ pseudoRun m f)) :
    ∃ t, runs 19 s = .next t ∧ t.dev = operated (writeRegs (setUpWrites k v b m f) s.dev) 1 ∧ t.in3 = s.in3 ∧
      t.host.pending = [] ∧ t.host.position = s.host.position + 19 := by
  rw [assemble_setUp] at hp
  obtain ⟨t, hruns, hdev, hin3, hpending, hposition⟩ :=
    runs_add_of_wordWrites (isStored_setUpWrites k v b m f) 1 h hp
  have hidle : t.dev.fsm = .idle := by rw [hdev, writeRegs_setUpWrites]; exact h
  rw [← hin3] at hpending
  refine ⟨_, hruns.trans (runs_succ_of_trigger (n := 0) (by decide) hidle hpending), ?_, hin3, rfl, ?_⟩
  · rw [answer_dev, withDevice_dev, hdev]
  · exact congrArg (· + 1) hposition

/-- `getout` gives back the fourth output word at its end and changes nothing of the device (R98). -/
theorem runs_getOut {s : State} (h : s.dev.fsm = .idle) (hp : s.host.pending = assemble s.in3 pseudoGetOut) :
    ∃ u, runs 4 s = .next u ∧ u.host.result = .word (s.dev.out.get 3) ∧ u.dev = s.dev := by
  rw [runs_succ_of_rdOut h hp, runs_succ_of_rdOut (j := 1) ?idle1 ?pending1,
    runs_succ_of_rdOut (j := 2) ?idle2 ?pending2, runs_succ_of_rdOut (j := 3) ?idle3 ?pending3]
  case idle1 | idle2 | idle3 => exact h
  case pending1 | pending2 | pending3 => rfl
  exact ⟨_, rfl, rfl, rfl⟩

end Sys2Proof.Machine

namespace Sys2Proof.Proofs
open Sys2Proof.Machine Sys2Proof.Safety

/-- Settles O2, operation by operation. -/
theorem decodeOfEncodeIsTheInstruction : Obligations.DecodeOfEncodeIsTheInstruction := by
  unfold Obligations.DecodeOfEncodeIsTheInstruction
  exact fun _ _ hwf => decode_encode hwf

/-- Settles O3: the decode function of each kind of access gives the operation that is encoded as that access. -/
theorem decodedAccessIsCanonical : Obligations.DecodedAccessIsCanonical := by
  unfold Obligations.DecodedAccessIsCanonical
  exact fun _ _ _ h => canonical_of_decode h

/-- Settles O4: a descriptor's access has the one width there is, and an operation's descriptor is read off its encoding. -/
theorem everyDescriptorDecodesToItsOwnInstruction : Obligations.EveryDescriptorDecodesToItsOwnInstruction := by
  unfold Obligations.EveryDescriptorDecodesToItsOwnInstruction
  intro m t v p
  obtain ⟨i, hdecodes, hwf, -⟩ := exists_decode_canonical m (accessSize_accessOfDescriptor t v p)
  refine ⟨i, hdecodes, hwf, fun u w q hu => ?_⟩
  rw [← encodeDescriptor_of_decodes hu, encodeDescriptor_of_decodes hdecodes]

/-- Settles O29: the writes store the operands, the trigger latches them, and the reads of `getout` change nothing. -/
theorem setUpAndRunComputesTheEngine : Obligations.SetUpAndRunComputesTheEngine := by
  unfold Obligations.SetUpAndRunComputesTheEngine
  intro s k v b m f hidle hp
  obtain ⟨t, hruns, hdev, hin3, hpending, hposition⟩ := runs_setUp k v b m f
    (s := issue (assemble s.in3 (pseudoSetKey k ++ pseudoSetIv v ++ pseudoSetIn b ++ pseudoRun m f)) s)
    hidle (by rw [issue_pending, hp, List.nil_append, issue_in3])
  obtain ⟨u, hgetOut, hresult, hdevice⟩ := runs_getOut (s := issue (assemble s.in3 pseudoGetOut) t)
    (by rw [issue_dev, hdev]; rfl) (by rw [issue_pending, hpending, List.nil_append, issue_in3, hin3, issue_in3])
  have hout : t.dev.out = wordsOfBlock (engineRun m f k v b) := by rw [hdev, out_operated_setUp]
  refine ⟨t, u, hruns, hout, ?valid, ?id, hpending, hposition, hgetOut, ?result, hdevice⟩
  case valid | id => rw [hdev, writeRegs_setUpWrites]; rfl
  case result => rw [hresult, issue_dev, hout, get_wordsOfBlock]; rfl

/-- Settles O1: each descriptor stands for the access its operation is encoded as. -/
theorem exampleDescriptorsDecode : Obligations.ExampleDescriptorsDecode := by
  unfold Obligations.ExampleDescriptorsDecode
  exact ⟨fun _ => decode_encode (i := .wrStart 1) rfl, fun _ _ => decode_encode (i := .rdOut 0) rfl,
    fun _ p => decode_encode (i := .wrcKey p) rfl, fun _ _ => decode_encode (i := .rdcOut) rfl,
    fun _ _ => decode_encode (i := .rdInvalid 0x0A0) rfl, rfl, rfl, fun _ => rfl, rfl, rfl⟩

end Sys2Proof.Proofs
end

section
/-! PROOFS. The field of 40_gf_sbox.md (R110 to R113) and its S-boxes (R114, R115): the laws of the product by induction over
the bytes as sums of doublings of 0x01, and the field inverse read back from the S-box table. -/

namespace Sys2Proof.Machine

/-! ### Doubling as a number -/

/-- Two numbers from 256 to 511 have bit 8 in common, so their sum in the field is that of their low bytes. -/
theorem xor_eq_xor_mod {m n : Nat} (hm : m / 256 = 1) (hn : n / 256 = 1) : m ^^^ n = (m % 256) ^^^ (n % 256) := by
  have hdiv : (m ^^^ n) / 2 ^ 8 = 0 := by rw [Nat.xor_div_two_pow, hm, hn, Nat.xor_self]
  have hlt : m ^^^ n < 2 ^ 8 := by omega
  rw [← Nat.mod_eq_of_lt hlt, Nat.xor_mod_two_pow]

/-- Doubling is doubling modulo 0x11B (R110, R111): the ninth bit, where there is one, is taken off with the polynomial. -/
theorem toNat_xtime (a : Byte) :
    (xtime a).toNat = if a.toNat < 128 then 2 * a.toNat else (2 * a.toNat) ^^^ 0x11B := by
  have hlt := a.isLt
  have hbit : a.getLsbD 7 = decide (128 ≤ a.toNat) := BitVec.msb_eq_decide a
  have hshift : (a <<< 1).toNat = 2 * a.toNat % 256 := by rw [BitVec.toNat_shiftLeft, Nat.shiftLeft_eq, Nat.mul_comm]
  rw [xtime_eq, hbit, BitVec.toNat_xor, hshift]
  by_cases h : a.toNat < 128
  · rw [if_pos h, decide_eq_false (by omega), Nat.mod_eq_of_lt (by omega)]
    exact Nat.xor_zero _
  · rw [if_neg h, decide_eq_true (by omega), xor_eq_xor_mod (m := 2 * a.toNat) (n := 0x11B) (by omega) rfl]
    rfl

/-! ### Every byte is a sum of doublings of 0x01 -/

theorem one_gmul (b : Byte) : gmul 1 b = b := by revert b; decide +kernel

/-- What doubling and addition keep, the loop of the product keeps. -/
theorem gmulFrom_induction {P : Byte → Prop} (hxtime : ∀ a, P a → P (xtime a)) (hxor : ∀ a b, P a → P b → P (a ^^^ b))
    (n k : Nat) {a : Byte} (b : Byte) {p : Byte} (ha : P a) (hp : P p) : P (gmulFrom n k a b p) := by
  induction n generalizing k a p with
  | zero => exact hp
  | succ n ih =>
    refine ih (k + 1) (hxtime a ha) ?_
    split
    · exact hxor p a hp ha
    · exact hp

/-- Induction over the field: what holds of 0x01 and is kept by doubling and addition holds of every byte (R110, R111). -/
theorem byte_induction {P : Byte → Prop} (hone : P 1) (hxtime : ∀ a, P a → P (xtime a))
    (hxor : ∀ a b, P a → P b → P (a ^^^ b)) (a : Byte) : P a := by
  have hzero : P 0 := hxor 1 1 hone hone
  rw [← one_gmul a]
  exact gmulFrom_induction hxtime hxor 8 0 a hone hzero

/-! ### The laws of the product -/

/-- Doubling goes through the loop of the product, in the first operand and the sum so far together (R112). -/
theorem gmulFrom_xtime (n k : Nat) (a b p : Byte) :
    gmulFrom n k (xtime a) b (xtime p) = xtime (gmulFrom n k a b p) := by
  induction n generalizing k a p with
  | zero => rfl
  | succ n ih =>
    have hsum : (if b.getLsbD k then xtime p ^^^ xtime a else xtime p) = xtime (if b.getLsbD k then p ^^^ a else p) := by
      rw [← xtime_xor, apply_ite xtime]
    rw [gmulFrom, gmulFrom, hsum, ih]

theorem gmul_xtime_left (a b : Byte) : gmul (xtime a) b = xtime (gmul a b) := gmulFrom_xtime 8 0 a b 0

theorem gmul_one (a : Byte) : gmul a 1 = a := by simp [gmul, gmulFrom]

theorem gmul_xtime_right (a b : Byte) : gmul a (xtime b) = xtime (gmul a b) := by
  induction a using byte_induction with
  | hone => rw [one_gmul, one_gmul]
  | hxtime a ih => rw [gmul_xtime_left, gmul_xtime_left, ih]
  | hxor a a' ih ih' => rw [gmul_xor, gmul_xor, xtime_xor, ih, ih']

/-- The product distributes over addition in its second operand (R112). -/
theorem gmul_xor_right (a b c : Byte) : gmul a (b ^^^ c) = gmul a b ^^^ gmul a c := by
  induction a using byte_induction with
  | hone => rw [one_gmul, one_gmul, one_gmul]
  | hxtime a ih => rw [gmul_xtime_left, gmul_xtime_left, gmul_xtime_left, ih, xtime_xor]
  | hxor a a' ih ih' => rw [gmul_xor, gmul_xor, gmul_xor, ih, ih']; ac_rfl

theorem gmul_comm (a b : Byte) : gmul a b = gmul b a := by
  induction a using byte_induction with
  | hone => rw [one_gmul, gmul_one]
  | hxtime a ih => rw [gmul_xtime_left, gmul_xtime_right, ih]
  | hxor a a' ih ih' => rw [gmul_xor, gmul_xor_right, ih, ih']

theorem gmul_assoc (a b c : Byte) : gmul (gmul a b) c = gmul a (gmul b c) := by
  induction a using byte_induction with
  | hone => rw [one_gmul, one_gmul]
  | hxtime a ih => rw [gmul_xtime_left, gmul_xtime_left, gmul_xtime_left, ih]
  | hxor a a' ih ih' => rw [gmul_xor, gmul_xor, gmul_xor, ih, ih']

theorem gmul_zero (a : Byte) : gmul a 0 = 0 := by
  simpa using gmul_xor_right a 0 0

theorem gmul_two (a : Byte) : gmul a 2 = xtime a := by
  rw [show (2 : Byte) = xtime 1 from rfl, gmul_xtime_right, gmul_one]

theorem gmul_three (a : Byte) : gmul a 3 = xtime a ^^^ a := by
  rw [show (3 : Byte) = 2 ^^^ 1 from rfl, gmul_xor_right, gmul_two, gmul_one]

/-! ### The affine map and the S-box table -/

/-- The affine map of R114, without the field inverse. -/
def affine (b : Byte) : Byte :=
  b ^^^ b.rotateLeft 1 ^^^ b.rotateLeft 2 ^^^ b.rotateLeft 3 ^^^ b.rotateLeft 4 ^^^ 0x63

theorem sboxAffine_eq (a : Byte) : sboxAffine a = affine (ginv a) := rfl

/-- The inverse of the affine map of R114. -/
def unaffine (s : Byte) : Byte := s.rotateLeft 1 ^^^ s.rotateLeft 3 ^^^ s.rotateLeft 6 ^^^ 0x05

theorem affine_unaffine (s : Byte) : affine (unaffine s) = s := by revert s; decide +kernel

/-- The table holds an inverse of every byte but 0x00, under the affine map (R114). -/
theorem gmul_unaffine_sbox (a : Byte) (ha : a ≠ 0) : gmul a (unaffine (sbox a)) = 1 := by revert a; decide +kernel

theorem unaffine_sbox_zero : unaffine (sbox 0) = 0 := by decide +kernel

/-- The S-box has no fixed point and no opposite fixed point (R114). -/
theorem sbox_ne (a : Byte) : sbox a ≠ a ∧ sbox a ≠ a ^^^ 0xFF := by revert a; decide +kernel

/-! ### The field inverse -/

theorem mem_allBytes (b : Byte) : b ∈ allBytes :=
  List.mem_map.2 ⟨b.toNat, List.mem_range.2 b.isLt, by rw [BitVec.ofNat_toNat, BitVec.setWidth_eq]⟩

theorem ginv_zero : ginv 0 = 0 := by
  have hnone : allBytes.find? (fun b => gmul 0 b == 0x01) = none := by
    refine List.find?_eq_none.2 fun b _ => ?_
    rw [gmul_comm, gmul_zero]
    decide
  rw [ginv, hnone, Option.getD_none]

/-- The search of `ginv` finds an inverse where there is one (R113). -/
theorem gmul_ginv_of_gmul_eq_one {a b : Byte} (h : gmul a b = 1) : gmul a (ginv a) = 1 := by
  obtain ⟨c, hc⟩ := Option.isSome_iff_exists.1
    (List.find?_isSome (p := fun b => gmul a b == 0x01).2 ⟨b, mem_allBytes b, beq_iff_eq.2 h⟩)
  rw [ginv, hc, Option.getD_some]
  exact beq_iff_eq.1 (List.find?_some (p := fun b => gmul a b == 0x01) hc)

/-- Inverses are unique: `b = (c a) b = c (a b) = c` (R113). -/
theorem eq_of_gmul_eq_one {a b c : Byte} (hb : gmul a b = 1) (hc : gmul a c = 1) : b = c :=
  calc
    b = gmul (gmul a c) b := by rw [hc, one_gmul]
    _ = gmul c (gmul a b) := by rw [gmul_comm a c, gmul_assoc]
    _ = c := by rw [hb, gmul_one]

/-- The field inverse stands in the S-box table, under the affine map (R113, R114). -/
theorem ginv_eq_unaffine_sbox (a : Byte) : ginv a = unaffine (sbox a) := by
  by_cases ha : a = 0
  · rw [ha, ginv_zero, unaffine_sbox_zero]
  · have htable := gmul_unaffine_sbox a ha
    exact eq_of_gmul_eq_one (gmul_ginv_of_gmul_eq_one htable) htable

theorem gmul_ginv {a : Byte} (ha : a ≠ 0) : gmul a (ginv a) = 1 := by
  rw [ginv_eq_unaffine_sbox, gmul_unaffine_sbox a ha]

theorem sbox_eq_sboxAffine (a : Byte) : sbox a = sboxAffine a := by
  rw [sboxAffine_eq, ginv_eq_unaffine_sbox, affine_unaffine]

/-! ### The affine map bit by bit -/

/-- A rotation to the left by `r` takes bit `i` from `r` places below it, around the byte. -/
theorem getLsbD_rotateLeft_byte (b : Byte) {r i : Nat} (hr : r < 8) (hi : i < 8) :
    (b.rotateLeft r).getLsbD i = b.getLsbD ((i + (8 - r)) % 8) := by
  rw [BitVec.getLsbD_rotateLeft, Nat.mod_eq_of_lt hr]
  by_cases h : i < r
  · simp only [h, decide_true, cond_true]
    congr 1; omega
  · simp only [h, hi, decide_true, decide_false, cond_false, Bool.true_and]
    congr 1; omega

theorem getLsbD_affine (b : Byte) {i : Nat} (hi : i < 8) :
    (affine b).getLsbD i = (b.getLsbD i ^^ b.getLsbD ((i + 7) % 8) ^^ b.getLsbD ((i + 6) % 8) ^^
      b.getLsbD ((i + 5) % 8) ^^ b.getLsbD ((i + 4) % 8) ^^ (0x63#8).getLsbD i) := by
  simp only [affine, BitVec.getLsbD_xor]
  rw [getLsbD_rotateLeft_byte b (by decide) hi, getLsbD_rotateLeft_byte b (by decide) hi,
    getLsbD_rotateLeft_byte b (by decide) hi, getLsbD_rotateLeft_byte b (by decide) hi]
  rfl

end Sys2Proof.Machine

namespace Sys2Proof.Proofs
open Sys2Proof.Machine

/-- Settles O39, by induction over the bytes as sums of doublings of 0x01. -/
theorem fieldProductLaws : Obligations.FieldProductLaws := by
  unfold Obligations.FieldProductLaws
  exact fun a b c => ⟨gmul_comm a b, gmul_assoc a b c, gmul_xor_right a b c, gmul_zero a, gmul_one a, gmul_two a, gmul_three a⟩

/-- Settles O40: the inverses are read back from the table, and the laws of the product make them unique. -/
theorem fieldInverseAndSBoxes : Obligations.FieldInverseAndSBoxes := by
  unfold Obligations.FieldInverseAndSBoxes
  refine ⟨ginv_zero, fun a b ha => ⟨fun h => eq_of_gmul_eq_one h (gmul_ginv ha), fun h => h ▸ gmul_ginv ha⟩, fun a => ?_⟩
  obtain ⟨hfixed, hopposite⟩ := sbox_ne a
  exact ⟨sbox_eq_sboxAffine a, hfixed, hopposite, invSbox_sbox a, sbox_invSbox a⟩

/-- Settles O54: the ninth bit is taken off with 0x11B, and the table is the affine map of the inverse, a sum of rotations. -/
theorem doublingAndSBoxBits : Obligations.DoublingAndSBoxBits := by
  unfold Obligations.DoublingAndSBoxBits
  refine ⟨toNat_xtime, fun a i hi => ?_⟩
  rw [sbox_eq_sboxAffine, sboxAffine_eq, getLsbD_affine _ hi]

end Sys2Proof.Proofs
end

section
/-! PROOFS. The key schedule (41_key_schedule.md R130 to R132) and its round constants (40_gf_sbox.md R116): the list grows
at its end alone, so a word once there is the word of the whole schedule, and each new word is the recurrence's. -/

namespace Sys2Proof.Machine
open Sys2Proof.Safety

/-! ### The round constants -/

/-- Each round constant after the first is the doubling of the one before (R116). -/
theorem rcon_succ {j : Nat} (hj : 1 ≤ j) : rcon (j + 1) = xtime (rcon j) := by
  obtain ⟨n, rfl⟩ := Nat.exists_eq_add_of_le' hj
  rfl

/-! ### The words of the schedule -/

@[simp] theorem length_scheduleWords (k : Key) (n : Nat) : (scheduleWords k n).length = n + 8 := by
  induction n with
  | zero => rfl
  | succ n ih => rw [scheduleWords, List.length_append, ih, List.length_singleton, Nat.add_right_comm]

/-- A later stage of the schedule has the words of every earlier one, at their places. -/
theorem getD_scheduleWords_add (k : Key) (m : Nat) {n i : Nat} (hi : i < n + 8) (d : ByteQuad) :
    (scheduleWords k (n + m)).getD i d = (scheduleWords k n).getD i d := by
  induction m with
  | zero => rfl
  | succ m ih =>
    have hlen : i < (scheduleWords k (n + m)).length := by rw [length_scheduleWords]; omega
    rw [← Nat.add_assoc, scheduleWords, List.getD_append _ _ _ _ hlen, ih]

/-- The word added to `n + 8` words is made of the word 8 back and the word before it (R132). -/
theorem getD_scheduleWords_succ_last (k : Key) (n : Nat) :
    (scheduleWords k (n + 1)).getD (n + 8) zeroQuad =
      quadXor ((scheduleWords k n).getD n zeroQuad)
        (scheduleStep (n + 8) ((scheduleWords k n).getD (n + 7) zeroQuad)) := by
  rw [scheduleWords, List.getD_append_right _ _ _ _ (length_scheduleWords k n).le, length_scheduleWords, Nat.sub_self]
  rfl

theorem length_keyExpansion (k : Key) : (keyExpansion k).length = 60 := length_scheduleWords k 52

/-- A word of a stage is the word of the whole schedule. -/
theorem getD_keyExpansion (k : Key) {n i : Nat} (hn : n ≤ 52) (hi : i < n + 8) (d : ByteQuad) :
    (keyExpansion k).getD i d = (scheduleWords k n).getD i d := by
  rw [keyExpansion, ← Nat.add_sub_of_le hn, getD_scheduleWords_add k _ hi]

/-- The schedule begins with the key (R132). -/
theorem getD_keyExpansion_of_lt_eight (k : Key) {i : Nat} (hi : i < 8) (d : ByteQuad) :
    (keyExpansion k).getD i d = (keyQuads k).getD i d :=
  getD_keyExpansion k (n := 0) (by omega) hi d

/-- The recurrence of R132 on the whole schedule. -/
theorem getD_keyExpansion_recurrence (k : Key) {i : Nat} (h8 : 8 ≤ i) (h60 : i < 60) :
    (keyExpansion k).getD i zeroQuad =
      quadXor ((keyExpansion k).getD (i - 8) zeroQuad) (scheduleStep i ((keyExpansion k).getD (i - 1) zeroQuad)) := by
  obtain ⟨n, rfl⟩ := Nat.exists_eq_add_of_le' h8
  rw [Nat.add_sub_cancel, show n + 8 - 1 = n + 7 by omega,
    getD_keyExpansion k (n := n + 1) (i := n + 8) (by omega) (by omega), getD_scheduleWords_succ_last,
    getD_keyExpansion k (n := n) (i := n) (by omega) (by omega),
    getD_keyExpansion k (n := n) (i := n + 7) (by omega) (by omega)]

/-! ### Bytes of the key and of the new word -/

/-- Byte `4i + j` of quads in a row is byte `j` of quad `i`; beyond the end both are zero. -/
theorem getD_flatMap_quadBytes (qs : List ByteQuad) (i : Nat) {j : Nat} (hj : j < 4) :
    (qs.flatMap quadBytes).getD (4 * i + j) 0 = (quadBytes (qs.getD i zeroQuad)).getD j 0 := by
  induction qs generalizing i with
  | nil => interval_cases j <;> rfl
  | cons q qs ih =>
    rw [List.flatMap_cons]
    cases i with
    | zero => rw [Nat.mul_zero, Nat.zero_add, List.getD_append _ _ _ _ hj, List.getD_cons_zero]
    | succ i =>
      have hlen : (quadBytes q).length = 4 := rfl
      rw [List.getD_append_right _ _ _ _ (by omega), hlen, show 4 * (i + 1) + j - 4 = 4 * i + j by omega, ih,
        List.getD_cons_succ]

/-- The key's bytes are those of its eight words in order (R132). -/
theorem keyBytes_eq_flatMap (k : Key) : keyBytes k = (keyQuads k).flatMap quadBytes := rfl

/-- The new word byte by byte: the rotated, substituted word with the round constant in byte 0, the substituted word, or the
word itself, added to the word 8 back (R130, R131, R132). -/
theorem quadXor_scheduleStep (i : Nat) (old t : ByteQuad) :
    quadXor old (scheduleStep i t) =
      if i % 8 = 0 then
        ⟨old.b0 ^^^ (sbox t.b1 ^^^ rcon (i / 8)), old.b1 ^^^ sbox t.b2, old.b2 ^^^ sbox t.b3, old.b3 ^^^ sbox t.b0⟩
      else if i % 8 = 4 then
        ⟨old.b0 ^^^ sbox t.b0, old.b1 ^^^ sbox t.b1, old.b2 ^^^ sbox t.b2, old.b3 ^^^ sbox t.b3⟩
      else ⟨old.b0 ^^^ t.b0, old.b1 ^^^ t.b1, old.b2 ^^^ t.b2, old.b3 ^^^ t.b3⟩ := by
  rw [scheduleStep, apply_ite (quadXor old), apply_ite (quadXor old)]
  rfl

end Sys2Proof.Machine

namespace Sys2Proof.Proofs
open Sys2Proof.Machine Sys2Proof.Safety

/-- Settles O41: every word of the schedule is there from the stage that adds it on, and that stage is the recurrence. -/
theorem keyScheduleRecurrence : Obligations.KeyScheduleRecurrence := by
  unfold Obligations.KeyScheduleRecurrence
  refine ⟨⟨rfl, fun j hj _ => rcon_succ hj, by decide⟩, fun k => ⟨length_keyExpansion k, ?key, ?recurrence⟩⟩
  case key =>
    intro i hi
    rw [getD_keyExpansion_of_lt_eight k hi]
    rw [keyBytes_eq_flatMap]
    exact ⟨rfl, fun j hj => (getD_flatMap_quadBytes _ i hj).symm⟩
  case recurrence =>
    rintro i h8 h60 t old rfl rfl
    rw [getD_keyExpansion_recurrence k h8 h60, quadXor_scheduleStep]

end Sys2Proof.Proofs
end

section
/-! PROOFS. The cipher (42_cipher.md R140 to R150): each round transform on the elements of the state, the mixings as the
polynomial products of FIPS-197 behind R146 and R147, and the two block functions undoing each other round by round. -/

namespace Sys2Proof.Machine
open Sys2Proof.Safety

/-! ### The bytes of a block as the elements of the state -/

theorem getD_quadBytes (q : ByteQuad) (r : Fin 4) : (quadBytes q).getD r.val 0 = quadAt q r := by
  fin_cases r <;> rfl

/-- Byte `r + 4c` of a block is its state's element in row `r` and column `c` (R140). -/
theorem getD_blockBytes_eq_stateAt (b : Block) (r c : Fin 4) :
    (blockBytes b).getD (r.val + 4 * c.val) 0 = stateAt b r c := by
  rw [Nat.add_comm, getD_blockBytes b c r.isLt, getD_quadBytes, stateAt]

/-! ### The round transforms on the elements of the state -/

section

variable (s : Block) (r c : Fin 4)

@[simp] theorem stateAt_subBytes : stateAt (subBytes s) r c = sbox (stateAt s r c) := stateAt_stateOf _ r c

@[simp] theorem stateAt_invSubBytes : stateAt (invSubBytes s) r c = invSbox (stateAt s r c) := stateAt_stateOf _ r c

@[simp] theorem stateAt_shiftRows : stateAt (shiftRows s) r c = stateAt s r (c + r) := stateAt_stateOf _ r c

@[simp] theorem stateAt_invShiftRows : stateAt (invShiftRows s) r c = stateAt s r (c - r) := stateAt_stateOf _ r c

/-- Column `c` of round key `n` is word `4n + c` of the schedule (41_key_schedule.md R133). -/
theorem columnAt_roundKey (w : List ByteQuad) (n : Nat) : columnAt (roundKey w n) c = w.getD (4 * n + c.val) zeroQuad := by
  fin_cases c <;> rfl

theorem stateAt_addRoundKey (w : List ByteQuad) (n : Nat) :
    stateAt (addRoundKey s w n) r c = stateAt s r c ^^^ quadAt (w.getD (4 * n + c.val) zeroQuad) r := by
  rw [← columnAt_roundKey]
  exact stateAt_stateOf _ r c

@[simp] theorem columnAt_mixColumns : columnAt (mixColumns s) c = mixColumn (columnAt s c) := by
  fin_cases c <;> rfl

@[simp] theorem columnAt_invMixColumns : columnAt (invMixColumns s) c = invMixColumn (columnAt s c) := by
  fin_cases c <;> rfl

end

/-! ### The mixings as products of polynomials -/

/-- The product of two polynomials of four bytes modulo `x^4 + 1`, byte `k` the coefficient of `x^k`: the form FIPS-197 gives
the two mixings in. -/
def quadMul (q m : ByteQuad) : ByteQuad :=
  ⟨gmul q.b0 m.b0 ^^^ gmul q.b1 m.b3 ^^^ gmul q.b2 m.b2 ^^^ gmul q.b3 m.b1,
   gmul q.b0 m.b1 ^^^ gmul q.b1 m.b0 ^^^ gmul q.b2 m.b3 ^^^ gmul q.b3 m.b2,
   gmul q.b0 m.b2 ^^^ gmul q.b1 m.b1 ^^^ gmul q.b2 m.b0 ^^^ gmul q.b3 m.b3,
   gmul q.b0 m.b3 ^^^ gmul q.b1 m.b2 ^^^ gmul q.b2 m.b1 ^^^ gmul q.b3 m.b0⟩

/-- The polynomial of `MixColumns` (R146). -/
def mixPoly : ByteQuad := ⟨0x02, 0x01, 0x01, 0x03⟩

/-- The polynomial of `InvMixColumns` (R147). -/
def invMixPoly : ByteQuad := ⟨0x0E, 0x09, 0x0D, 0x0B⟩

theorem mixColumn_eq_quadMul (q : ByteQuad) : mixColumn q = quadMul q mixPoly := by
  simp only [mixColumn, quadMul, mixPoly, gmul_one]

theorem invMixColumn_eq_quadMul (q : ByteQuad) : invMixColumn q = quadMul q invMixPoly := rfl

theorem quadMul_one (q : ByteQuad) : quadMul q ⟨0x01, 0x00, 0x00, 0x00⟩ = q := by
  simp only [quadMul, gmul_one, gmul_zero]
  simp

/-- The product is associative: both sides sum the products of one byte of each operand over the same powers of `x`. -/
theorem quadMul_assoc (q m n : ByteQuad) : quadMul (quadMul q m) n = quadMul q (quadMul m n) := by
  simp only [quadMul, gmul_xor, gmul_xor_right, gmul_assoc, ByteQuad.mk.injEq]
  refine ⟨?_, ?_, ?_, ?_⟩ <;> ac_rfl

/-- A column of four equal bytes is multiplied by the sum of the polynomial's coefficients. -/
theorem quadMul_replicate (a : Byte) (m : ByteQuad) (hm : m.b0 ^^^ m.b1 ^^^ m.b2 ^^^ m.b3 = 1) :
    quadMul ⟨a, a, a, a⟩ m = ⟨a, a, a, a⟩ := by
  have hsum : gmul a m.b0 ^^^ gmul a m.b1 ^^^ gmul a m.b2 ^^^ gmul a m.b3 = a := by
    rw [← gmul_xor_right, ← gmul_xor_right, ← gmul_xor_right, hm, gmul_one]
  simp only [quadMul, ByteQuad.mk.injEq]
  refine ⟨?_, ?_, ?_, ?_⟩ <;> refine Eq.trans ?_ hsum <;> ac_rfl

theorem invMixColumn_mixColumn (q : ByteQuad) : invMixColumn (mixColumn q) = q := by
  have hinv : quadMul mixPoly invMixPoly = ⟨0x01, 0x00, 0x00, 0x00⟩ := by decide
  rw [invMixColumn_eq_quadMul, mixColumn_eq_quadMul, quadMul_assoc, hinv, quadMul_one]

theorem mixColumn_invMixColumn (q : ByteQuad) : mixColumn (invMixColumn q) = q := by
  have hinv : quadMul invMixPoly mixPoly = ⟨0x01, 0x00, 0x00, 0x00⟩ := by decide
  rw [invMixColumn_eq_quadMul, mixColumn_eq_quadMul, quadMul_assoc, hinv, quadMul_one]

/-- The coefficients of the polynomial add up to 0x01 (R146). -/
theorem mixColumn_replicate (a : Byte) : mixColumn ⟨a, a, a, a⟩ = ⟨a, a, a, a⟩ := by
  rw [mixColumn_eq_quadMul, quadMul_replicate a mixPoly (by decide)]

/-- The coefficients of the inverse polynomial add up to 0x01 too (R147). -/
theorem invMixColumn_replicate (a : Byte) : invMixColumn ⟨a, a, a, a⟩ = ⟨a, a, a, a⟩ := by
  rw [invMixColumn_eq_quadMul, quadMul_replicate a invMixPoly (by decide)]

/-! ### Each round transform under its inverse -/

section

variable (s : Block)

@[simp] theorem invSubBytes_subBytes : invSubBytes (subBytes s) = s :=
  block_ext_stateAt fun r c => by simp [invSbox_sbox]

@[simp] theorem subBytes_invSubBytes : subBytes (invSubBytes s) = s :=
  block_ext_stateAt fun r c => by simp [sbox_invSbox]

@[simp] theorem invShiftRows_shiftRows : invShiftRows (shiftRows s) = s :=
  block_ext_stateAt fun r c => by simp

@[simp] theorem shiftRows_invShiftRows : shiftRows (invShiftRows s) = s :=
  block_ext_stateAt fun r c => by simp

@[simp] theorem invMixColumns_mixColumns : invMixColumns (mixColumns s) = s := by
  simp only [invMixColumns, mixColumns, invMixColumn_mixColumn]

@[simp] theorem mixColumns_invMixColumns : mixColumns (invMixColumns s) = s := by
  simp only [invMixColumns, mixColumns, mixColumn_invMixColumn]

end

/-! ### The rounds of the block functions -/

section

variable (w : List ByteQuad) (n : Nat) (s : Block)

/-- Round `n + 1` of `Cipher` (R148). -/
theorem cipherRounds_succ :
    cipherRounds w (n + 1) s = addRoundKey (mixColumns (shiftRows (subBytes (cipherRounds w n s)))) w (n + 1) := rfl

/-- Round 0 of `InvCipher` has no `InvMixColumns` (R149). -/
theorem invCipherRounds_one : invCipherRounds w 1 s = addRoundKey (invSubBytes (invShiftRows s)) w 0 := rfl

/-- Round `n + 1` of `InvCipher`, and the rounds below it (R149). -/
theorem invCipherRounds_add_two :
    invCipherRounds w (n + 2) s =
      invCipherRounds w (n + 1) (invMixColumns (addRoundKey (invSubBytes (invShiftRows s)) w (n + 1))) := rfl

/-- The states the rounds `n` downto 0 of `InvCipher` go through: `t r` is the state when round `r` is done (R149). -/
theorem exists_states_invCipherRounds : ∃ t : Nat → Block, t (n + 1) = s ∧
    (∀ r < n + 1, r ≠ 0 → t r = invMixColumns (addRoundKey (invSubBytes (invShiftRows (t (r + 1)))) w r)) ∧
    t 0 = addRoundKey (invSubBytes (invShiftRows (t 1))) w 0 ∧ invCipherRounds w (n + 1) s = t 0 := by
  induction n generalizing s with
  | zero => exact ⟨fun | 0 => invCipherRounds w 1 s | _ + 1 => s, rfl, fun r hr h0 => by omega, rfl, rfl⟩
  | succ n ih =>
    obtain ⟨t, hfirst, hround, hzero, hrounds⟩ :=
      ih (invMixColumns (addRoundKey (invSubBytes (invShiftRows s)) w (n + 1)))
    have hkept : ∀ r < n + 2, Function.update t (n + 2) s r = t r := fun r hr => Function.update_of_ne hr.ne s t
    have hnew : Function.update t (n + 2) s (n + 2) = s := Function.update_self (n + 2) s t
    refine ⟨Function.update t (n + 2) s, hnew, fun r hr h0 => ?_, ?_, ?_⟩
    · rw [hkept r hr]
      rcases Nat.lt_succ_iff_lt_or_eq.1 hr with hlt | rfl
      · rw [hkept (r + 1) (Nat.succ_lt_succ hlt), hround r hlt h0]
      · rw [hnew, hfirst]
    · rw [hkept 0 (by omega), hkept 1 (by omega), hzero]
    · rw [hkept 0 (by omega), invCipherRounds_add_two, hrounds]

/-! ### The block functions under each other -/

/-- The rounds `n` downto 0 of `InvCipher` undo the rounds 1 to `n` of `Cipher` and the row shift and substitution after
them; AddRoundKey(0) is left over (R150). -/
theorem invCipherRounds_shiftRows_subBytes_cipherRounds :
    invCipherRounds w (n + 1) (shiftRows (subBytes (cipherRounds w n s))) = addRoundKey s w 0 := by
  induction n with
  | zero => rw [invCipherRounds_one, invShiftRows_shiftRows, invSubBytes_subBytes, cipherRounds]
  | succ n ih =>
    rw [invCipherRounds_add_two, invShiftRows_shiftRows, invSubBytes_subBytes, cipherRounds_succ, addRoundKey_twice,
      invMixColumns_mixColumns, ih]

/-- The same with the two block functions exchanged (R150). -/
theorem shiftRows_subBytes_cipherRounds_invCipherRounds :
    shiftRows (subBytes (cipherRounds w n (addRoundKey (invCipherRounds w (n + 1) s) w 0))) = s := by
  induction n generalizing s with
  | zero => rw [invCipherRounds_one, addRoundKey_twice, cipherRounds, subBytes_invSubBytes, shiftRows_invShiftRows]
  | succ n ih =>
    rw [invCipherRounds_add_two, cipherRounds_succ, ih, mixColumns_invMixColumns, addRoundKey_twice, subBytes_invSubBytes,
      shiftRows_invShiftRows]

/-- `InvCipher` undoes `Cipher` under any list of round keys (R150). -/
@[simp] theorem invCipher_cipher : invCipher (cipher s w) w = s := by
  rw [invCipher, cipher, addRoundKey_twice, invCipherRounds_shiftRows_subBytes_cipherRounds, addRoundKey_twice]

/-- `Cipher` undoes `InvCipher` under any list of round keys (R150). -/
@[simp] theorem cipher_invCipher : cipher (invCipher s w) w = s := by
  rw [cipher, invCipher, shiftRows_subBytes_cipherRounds_invCipherRounds, addRoundKey_twice]

end

end Sys2Proof.Machine

namespace Sys2Proof.Proofs
open Sys2Proof.Machine Sys2Proof.Safety

/-- Settles O42, element by element of the state. -/
theorem rowShiftsAndKeyAdditionOnBytes : Obligations.RowShiftsAndKeyAdditionOnBytes := by
  unfold Obligations.RowShiftsAndKeyAdditionOnBytes
  intro b w n r hr c hc
  have hbyte (s : Block) (c' : Fin 4) : (blockBytes s).getD (r + 4 * c'.val) 0 = stateAt s ⟨r, hr⟩ c' :=
    getD_blockBytes_eq_stateAt s ⟨r, hr⟩ c'
  have hadd : (c + r) % 4 = (⟨c, hc⟩ + ⟨r, hr⟩ : Fin 4).val := rfl
  have hsub : (c + 4 - r) % 4 = (⟨c, hc⟩ - ⟨r, hr⟩ : Fin 4).val := by
    rw [Fin.val_sub, Nat.add_sub_assoc hr.le, Nat.add_comm]
  refine ⟨?shift, ?invShift, ?key⟩
  case shift => rw [hadd, hbyte, hbyte _ ⟨c, hc⟩, stateAt_shiftRows]
  case invShift => rw [hsub, hbyte, hbyte _ ⟨c, hc⟩, stateAt_invShiftRows]
  case key => rw [hbyte _ ⟨c, hc⟩, hbyte _ ⟨c, hc⟩, stateAt_addRoundKey, getD_quadBytes _ ⟨r, hr⟩]

/-- Settles O43: each transform and its inverse on the elements of the state, the mixings as polynomial products. -/
theorem roundTransformsHaveInverses : Obligations.RoundTransformsHaveInverses := by
  unfold Obligations.RoundTransformsHaveInverses
  exact fun s => ⟨invSubBytes_subBytes s, subBytes_invSubBytes s, invShiftRows_shiftRows s, shiftRows_invShiftRows s,
    invMixColumns_mixColumns s, mixColumns_invMixColumns s, addRoundKey_twice s,
    fun a => ⟨mixColumn_replicate a, invMixColumn_replicate a⟩⟩

/-- Settles O44: `Cipher`'s states are those after its first rounds, `InvCipher`'s those of its rounds from 13 down. -/
theorem cipherRoundsInOrder : Obligations.CipherRoundsInOrder := by
  unfold Obligations.CipherRoundsInOrder
  intro b w
  exact ⟨⟨fun r => cipherRounds w r (addRoundKey b w 0), rfl, fun r _ => cipherRounds_succ w r _, rfl⟩,
    exists_states_invCipherRounds w 13 (addRoundKey b w 14)⟩

/-- Settles O45: the rounds undo each other, whatever the round keys are. -/
theorem cipherInverseLaw : Obligations.CipherInverseLaw := by
  unfold Obligations.CipherInverseLaw
  exact fun b k => ⟨invCipher_cipher (keyExpansion k) b, cipher_invCipher (keyExpansion k) b⟩

/-- Settles O53: the substitutions element by element, the mixings column by column. -/
theorem substitutionsAndMixingsOnBytes : Obligations.SubstitutionsAndMixingsOnBytes := by
  unfold Obligations.SubstitutionsAndMixingsOnBytes
  refine fun s => ⟨fun r hr c hc => ?substitutions, ?mixings⟩
  case substitutions =>
    have hbyte (b : Block) : (blockBytes b).getD (r + 4 * c) 0 = stateAt b ⟨r, hr⟩ ⟨c, hc⟩ :=
      getD_blockBytes_eq_stateAt b ⟨r, hr⟩ ⟨c, hc⟩
    rw [hbyte, hbyte, hbyte, stateAt_subBytes, stateAt_invSubBytes]
    exact ⟨rfl, rfl⟩
  case mixings =>
    rintro c hc a0 a1 a2 a3 rfl rfl rfl rfl
    have hbyte (b : Block) {j : Nat} (hj : j < 4) :
        (blockBytes b).getD (4 * c + j) 0 = (quadBytes (columnAt b ⟨c, hc⟩)).getD j 0 := getD_blockBytes b ⟨c, hc⟩ hj
    have hfirst (b : Block) : (blockBytes b).getD (4 * c) 0 = (quadBytes (columnAt b ⟨c, hc⟩)).getD 0 0 :=
      hbyte b (j := 0) (by decide)
    simp only [hfirst, hbyte _ (j := 1) (by decide), hbyte _ (j := 2) (by decide), hbyte _ (j := 3) (by decide),
      columnAt_mixColumns, columnAt_invMixColumns]
    exact ⟨rfl, rfl, rfl, rfl, rfl, rfl, rfl, rfl⟩

end Sys2Proof.Proofs
end

section
/-! PROOFS. The modes of operation (43_modes.md R170 to R179): the counter as a number to the base 256, the buffer drivers on
the blocks of their buffer, the keystream by the index of its byte, and decryption undoing encryption in every format. -/

namespace Sys2Proof.Machine
open Sys2Proof.Safety

/-! ### The counter as a number -/

theorem blockBytes_blockOfBytes {l : List Byte} (h : l.length = 16) : blockBytes (blockOfBytes l) = l := by
  refine List.ext_getElem (by rw [length_blockBytes, h]) fun i hi hl => ?_
  have hbyte := getD_blockBytes_blockOfBytes l hi
  rwa [List.getD_eq_getElem _ _ hi, List.getD_eq_getElem _ _ hl] at hbyte

/-- The number of a block is its bytes as digits to the base 256, byte 15 the least significant (R173). -/
theorem blockNumber_eq_ofDigits (b : Block) :
    blockNumber b = Nat.ofDigits 256 ((blockBytes b).reverse.map BitVec.toNat) := by
  rw [blockNumber, Nat.ofDigits_eq_foldr, List.map_reverse, List.foldr_reverse, List.foldl_map]
  simp only [Nat.cast_id, Nat.add_comm]

@[simp] theorem length_incrementBytes (l : List Byte) : (incrementBytes l).length = l.length := by
  induction l with
  | nil => rfl
  | cons b rest ih =>
    rw [incrementBytes]
    split <;> simp [ih]

/-- The carry runs to the first byte that does not wrap, and out of the last one (R173). -/
theorem ofDigits_incrementBytes (l : List Byte) :
    Nat.ofDigits 256 ((incrementBytes l).map BitVec.toNat) =
      (Nat.ofDigits 256 (l.map BitVec.toNat) + 1) % 256 ^ l.length := by
  induction l with
  | nil => rfl
  | cons b rest ih =>
    have hbound : Nat.ofDigits 256 (rest.map BitVec.toNat) < 256 ^ (rest.map BitVec.toNat).length :=
      Nat.ofDigits_lt_base_pow_length (by decide) (List.forall_mem_map.2 fun x _ => x.isLt)
    rw [List.length_map] at hbound
    have hb := b.isLt
    rw [incrementBytes, List.length_cons, Nat.pow_succ', List.map_cons, Nat.ofDigits_cons]
    split
    case isTrue hwrap =>
      have hmax : b.toNat = 255 := by bv_omega
      have hcarry (n : Nat) : 255 + 256 * n + 1 = 256 * (n + 1) := by omega
      rw [List.map_cons, Nat.ofDigits_cons, ih, hmax, hcarry, Nat.mul_mod_mul_left]
      exact Nat.zero_add _
    case isFalse hstays =>
      have hsucc : (b + 1).toNat = b.toNat + 1 := by bv_omega
      rw [List.map_cons, Nat.ofDigits_cons, hsucc, Nat.mod_eq_of_lt]
      · omega
      · have : b.toNat ≠ 255 := by bv_omega
        omega

theorem blockNumber_ctrIncrement (q : Block) : blockNumber (ctrIncrement q) = (blockNumber q + 1) % 2 ^ 128 := by
  rw [blockNumber_eq_ofDigits, ctrIncrement, blockBytes_blockOfBytes (by simp), List.reverse_reverse,
    ofDigits_incrementBytes, ← blockNumber_eq_ofDigits, List.length_reverse, length_blockBytes,
    show 256 ^ 16 = 2 ^ 128 by norm_num]

/-! ### The single-block drivers under each other -/

@[simp] theorem ecbBlock_true_ecbBlock_false (b : Block) (w : List ByteQuad) : ecbBlock true (ecbBlock false b w) w = b :=
  invCipher_cipher w b

/-- CBC decryption gives back the block that was encrypted and leaves the same IV (R171, R172). -/
theorem cbcDecryptBlock_cbcEncryptBlock (b v : Block) (w : List ByteQuad) :
    cbcDecryptBlock (cbcEncryptBlock b v w).1 v w = (b, (cbcEncryptBlock b v w).2) := by
  simp only [cbcEncryptBlock, cbcDecryptBlock, invCipher_cipher, blockXor_self_right]

/-! ### The dispatch -/

section

variable (m f : Word) (k : Key) (v b : Block)

theorem engineRun_ecb : engineRun m 0 k v b = ecbBlock (decrypts m) b (keyExpansion k) := rfl

theorem engineRun_cbc : engineRun m 1 k v b =
    if decrypts m then (cbcDecryptBlock b v (keyExpansion k)).1 else (cbcEncryptBlock b v (keyExpansion k)).1 := rfl

/-- CTR ignores the mode (R178). -/
theorem engineRun_ctr {f : Word} (h0 : f ≠ 0) (h1 : f ≠ 1) : engineRun m f k v b = (ctrBlock b v (keyExpansion k)).1 := by
  simp only [engineRun, formatSelects, if_neg h0, if_neg h1]

@[simp] theorem decrypts_zero : decrypts 0 = false := rfl

theorem decrypts_of_ne_zero {m : Word} (hm : m ≠ 0) : decrypts m = true := bne_iff_ne.2 hm

/-- In CTR any two modes undo each other, since both add the same keystream block (R179). -/
theorem engineRun_engineRun_ctr {f : Word} (h0 : f ≠ 0) (h1 : f ≠ 1) (m' : Word) :
    engineRun m' f k v (engineRun m f k v b) = b := by
  rw [engineRun_ctr m' k v _ h0 h1, engineRun_ctr m k v b h0 h1, ctrBlock, ctrBlock, blockXor_self_right]

/-- Decryption undoes encryption in every format (R179). -/
theorem engineRun_decrypt_encrypt {m : Word} (hm : m ≠ 0) : engineRun m f k v (engineRun 0 f k v b) = b := by
  by_cases h0 : f = 0
  · subst h0
    rw [engineRun_ecb, engineRun_ecb, decrypts_of_ne_zero hm, decrypts_zero, ecbBlock_true_ecbBlock_false]
  by_cases h1 : f = 1
  · subst h1
    rw [engineRun_cbc, engineRun_cbc, if_pos (decrypts_of_ne_zero hm), decrypts_zero, if_neg Bool.false_ne_true,
      cbcDecryptBlock_cbcEncryptBlock]
  · exact engineRun_engineRun_ctr 0 k v b h0 h1 m

end

/-! ### The operation on the device -/

/-- The block of four words has those words (20_memory.md R66). -/
@[simp] theorem wordsOfBlock_blockOfWords (ws : Vector Word 4) : wordsOfBlock (blockOfWords ws) = ws := by
  ext i hi
  interval_cases i <;> simp [wordsOfBlock, blockOfWords, Vector.get_eq_getElem]

theorem exec_wrStart_of_ne_zero {v : Word} (hv : v ≠ 0) (s : State) :
    exec (.wrStart v) s = .next (answer .nothing (withDevice s (operated s.dev v))) := by
  rw [← writeStart_of_ne_zero s.dev hv]
  rfl

/-! ### The blocks of a buffer -/

theorem blocksBytes_cons (b : Block) (bs : List Block) : blocksBytes (b :: bs) = blockBytes b ++ blocksBytes bs :=
  List.flatMap_cons

@[simp] theorem length_blocksBytes (bs : List Block) : (blocksBytes bs).length = 16 * bs.length := by
  simp [blocksBytes, List.length_flatMap, Nat.mul_comm]

@[simp] theorem bufferBlocks_blocksBytes (bs : List Block) : bufferBlocks (blocksBytes bs) = some bs := by
  induction bs with
  | nil => rfl
  | cons b bs ih =>
    have hhead : bufferBlocks (blocksBytes (b :: bs)) = (bufferBlocks (blocksBytes bs)).map (b :: ·) := rfl
    rw [hhead, ih]
    rfl

/-- A buffer of a multiple of 16 bytes is a list of blocks (R175). -/
theorem exists_blocksBytes_eq {d : List Byte} (h : d.length % 16 = 0) : ∃ bs, blocksBytes bs = d := by
  induction hn : d.length / 16 generalizing d with
  | zero => exact ⟨[], (List.eq_nil_of_length_eq_zero (by omega)).symm⟩
  | succ n ih =>
    obtain ⟨bs, hbs⟩ := ih (d := d.drop 16) (by rw [List.length_drop]; omega) (by rw [List.length_drop]; omega)
    refine ⟨blockOfBytes (d.take 16) :: bs, ?_⟩
    rw [blocksBytes_cons, blockBytes_blockOfBytes (by rw [List.length_take]; omega), hbs, List.take_append_drop]

/-- Only a multiple of 16 bytes has blocks (R175, R176). -/
theorem bufferBlocks_eq_none {d : List Byte} (h : d.length % 16 ≠ 0) : bufferBlocks d = none := by
  fun_induction bufferBlocks d with
  | case1 => exact absurd rfl h
  | case2 _ _ _ _ _ _ _ _ _ _ _ _ _ _ _ _ rest ih =>
    have hrest : rest.length % 16 ≠ 0 := by simpa [Nat.add_assoc] using h
    rw [ih hrest, Option.map_none]
  | case3 => rfl

/-- Block `j` of the bytes of a list of blocks is the list's. -/
theorem bufferBlock_blocksBytes {bs : List Block} {j : Nat} (hj : j < bs.length) :
    bufferBlock (blocksBytes bs) j = bs[j] := by
  induction bs generalizing j with
  | nil => exact absurd hj (Nat.not_lt_zero j)
  | cons b bs ih =>
    cases j with
    | zero => rfl
    | succ j =>
      have htail : bufferBlock (blocksBytes (b :: bs)) (j + 1) = bufferBlock (blocksBytes bs) j := by
        rw [bufferBlock, Nat.mul_succ, Nat.add_comm, ← List.drop_drop]
        rfl
      rw [htail, ih (Nat.lt_of_succ_lt_succ hj), List.getElem_cons_succ]

/-! ### A driver threaded through the blocks -/

section

variable {f g : Block → Block → Block × Block}

@[simp] theorem length_threadBlocks (bs : List Block) (v : Block) : (threadBlocks f bs v).1.length = bs.length := by
  induction bs generalizing v with
  | nil => rfl
  | cons b bs ih => simp [threadBlocks, ih]

/-- The IVs a driver goes through: `u j` is the one that block `j` is run with, the last one is given back (R176). -/
theorem exists_ivs_threadBlocks (bs : List Block) (v : Block) : ∃ u : Nat → Block,
    u 0 = v ∧ u bs.length = (threadBlocks f bs v).2 ∧
      ∀ j (hj : j < bs.length), ((threadBlocks f bs v).1[j]'(by simpa using hj), u (j + 1)) = f bs[j] (u j) := by
  induction bs generalizing v with
  | nil => exact ⟨fun _ => v, rfl, rfl, fun j hj => absurd hj (Nat.not_lt_zero j)⟩
  | cons b bs ih =>
    obtain ⟨u, hfirst, hlast, hblock⟩ := ih (f b v).2
    refine ⟨Nat.rec v fun j _ => u j, rfl, hlast, fun j hj => ?_⟩
    cases j with
    | zero => exact Prod.ext rfl hfirst
    | succ j => exact hblock j (Nat.lt_of_succ_lt_succ hj)

/-- A driver that undoes another block by block, with the same next IV, undoes it on every list of blocks. -/
theorem threadBlocks_threadBlocks (h : ∀ b v, g (f b v).1 v = (b, (f b v).2))
    (bs : List Block) (v : Block) : threadBlocks g (threadBlocks f bs v).1 v = (bs, (threadBlocks f bs v).2) := by
  induction bs generalizing v with
  | nil => rfl
  | cons b bs ih => simp only [threadBlocks, h, ih]

end

/-- CBC decryption run through the ciphertext gives back the blocks and the same last IV (R176). -/
theorem threadBlocks_cbcDecryptBlock (bs : List Block) (v : Block) (w : List ByteQuad) :
    threadBlocks (fun c u => cbcDecryptBlock c u w) (threadBlocks (fun b u => cbcEncryptBlock b u w) bs v).1 v =
      (bs, (threadBlocks (fun b u => cbcEncryptBlock b u w) bs v).2) :=
  threadBlocks_threadBlocks (f := fun b u => cbcEncryptBlock b u w) (g := fun c u => cbcDecryptBlock c u w)
    (fun b u => cbcDecryptBlock_cbcEncryptBlock b u w) bs v

/-- A CBC driver on whole blocks: the single-block driver `f` on each, with the IVs `u` threaded through them (R176). -/
theorem exists_ivs_blocksBytes (f : Block → Block → Block × Block) (bs : List Block) (v : Block) :
    ∃ e, ∃ u : Nat → Block,
      some (blocksBytes (threadBlocks f bs v).1, (threadBlocks f bs v).2) =
        some (e, u ((blocksBytes bs).length / 16)) ∧
      e.length = (blocksBytes bs).length ∧ u 0 = v ∧
      ∀ j < (blocksBytes bs).length / 16, (bufferBlock e j, u (j + 1)) = f (bufferBlock (blocksBytes bs) j) (u j) := by
  obtain ⟨u, hfirst, hlast, hblock⟩ := exists_ivs_threadBlocks (f := f) bs v
  have hcount : (blocksBytes bs).length / 16 = bs.length := by simp
  rw [hcount]
  refine ⟨_, u, by rw [hlast], by simp, hfirst, fun j hj => ?_⟩
  rw [bufferBlock_blocksBytes hj, bufferBlock_blocksBytes (by simpa using hj), hblock j hj]

section

variable (dec : Bool) (bs : List Block) (v : Block) (w : List ByteQuad)

theorem ecbBuffer_blocksBytes :
    ecbBuffer dec (blocksBytes bs) w = some (blocksBytes (bs.map fun b => ecbBlock dec b w)) := by
  rw [ecbBuffer, bufferBlocks_blocksBytes, Option.map_some]

theorem cbcEncryptBuffer_blocksBytes : cbcEncryptBuffer (blocksBytes bs) v w =
    some (blocksBytes (threadBlocks (fun b u => cbcEncryptBlock b u w) bs v).1,
      (threadBlocks (fun b u => cbcEncryptBlock b u w) bs v).2) := by
  rw [cbcEncryptBuffer, bufferBlocks_blocksBytes, Option.map_some]

theorem cbcDecryptBuffer_blocksBytes : cbcDecryptBuffer (blocksBytes bs) v w =
    some (blocksBytes (threadBlocks (fun c u => cbcDecryptBlock c u w) bs v).1,
      (threadBlocks (fun c u => cbcDecryptBlock c u w) bs v).2) := by
  rw [cbcDecryptBuffer, bufferBlocks_blocksBytes, Option.map_some]

end

/-! ### The keystream -/

/-- The counter after one more increment, made at the end (R173). -/
theorem counterAfter_succ (n : Nat) (q : Block) : counterAfter (n + 1) q = ctrIncrement (counterAfter n q) := by
  induction n generalizing q with
  | zero => rfl
  | succ n ih => exact ih (ctrIncrement q)

/-- Byte `i` of the keystream that starts at the counter `q`: sixteen bytes for each counter value (R177). -/
def keystreamByte (w : List ByteQuad) (q : Block) (i : Nat) : Byte :=
  (blockBytes (cipher (counterAfter (i / 16) q) w)).getD (i % 16) 0

/-- The loop from index `i`, where the counter `c` is one increment beyond each block begun and `s` is the keystream block
that `i` stands in, if one is begun (R177). -/
theorem ctrBytes_eq (w : List ByteQuad) (q : Block) (d : List Byte) {i : Nat} {c s : Block}
    (hc : c = counterAfter ((i + 15) / 16) q) (hs : i % 16 ≠ 0 → s = cipher (counterAfter (i / 16) q) w) :
    ctrBytes w i d c s =
      (d.mapIdx fun j x => x ^^^ keystreamByte w q (i + j), counterAfter ((i + d.length + 15) / 16) q) := by
  induction d generalizing i c s with
  | nil => rw [ctrBytes, hc]; rfl
  | cons x d ih =>
    have hblock : (if i % 16 = 0 then cipher c w else s) = cipher (counterAfter (i / 16) q) w := by
      split
      case isTrue h => rw [hc, show (i + 15) / 16 = i / 16 by omega]
      case isFalse h => exact hs h
    have hcounter : (if i % 16 = 0 then ctrIncrement c else c) = counterAfter ((i + 1 + 15) / 16) q := by
      rw [hc]
      split
      case isTrue h => rw [← counterAfter_succ, show (i + 15) / 16 + 1 = (i + 1 + 15) / 16 by omega]
      case isFalse h => rw [show (i + 15) / 16 = (i + 1 + 15) / 16 by omega]
    have hnext : (i + 1) % 16 ≠ 0 →
        cipher (counterAfter (i / 16) q) w = cipher (counterAfter ((i + 1) / 16) q) w := by
      intro h
      rw [show i / 16 = (i + 1) / 16 by omega]
    rw [ctrBytes, hblock, hcounter, ih rfl hnext, List.mapIdx_cons, List.length_cons]
    simp only [keystreamByte, Nat.add_assoc, Nat.add_comm 1, Nat.add_zero]

theorem ctrBuffer_eq (d : List Byte) (q : Block) (w : List ByteQuad) :
    ctrBuffer d q w = (d.mapIdx fun j x => x ^^^ keystreamByte w q j, counterAfter ((d.length + 15) / 16) q) := by
  rw [ctrBuffer, ctrBytes_eq w q d (i := 0) (c := q) (s := q) rfl (fun h => absurd rfl h)]
  simp only [Nat.zero_add]

end Sys2Proof.Machine

namespace Sys2Proof.Proofs
open Sys2Proof.Machine Sys2Proof.Safety

/-- Settles O46: the bytes are digits to the base 256, and the carry runs through them. -/
theorem counterIncrementIsPlusOne : Obligations.CounterIncrementIsPlusOne := by
  unfold Obligations.CounterIncrementIsPlusOne
  exact blockNumber_ctrIncrement

/-- Settles O49: the round trip of each format at the selectors R179 names. -/
theorem engineRoundTrips : Obligations.EngineRoundTrips := by
  unfold Obligations.EngineRoundTrips
  exact fun k v b => ⟨engineRun_decrypt_encrypt 0 k v b (by decide), engineRun_decrypt_encrypt 1 k v b (by decide),
    fun m m' => engineRun_engineRun_ctr m k v b (by decide) (by decide) m'⟩

/-- Settles O50: each trigger is one operation on the registers, and the two operations are the engine's round trip. -/
theorem deviceRoundTrip : Obligations.DeviceRoundTrip := by
  unfold Obligations.DeviceRoundTrip
  intro s v v' m hmode hv hv' hm
  refine ⟨_, _, exec_wrStart_of_ne_zero hv s, exec_wrStart_of_ne_zero hv' _, ?output, rfl, rfl⟩
  simp only [answer_dev, withDevice_dev, operated, hmode, blockOfWords_wordsOfBlock, engineRun_decrypt_encrypt _ _ _ _ hm,
    wordsOfBlock_blockOfWords]

/-- Settles O51: a refused length has no blocks; any other buffer is the bytes of its blocks, which the drivers run through. -/
theorem ecbAndCbcBuffersInvert : Obligations.EcbAndCbcBuffersInvert := by
  unfold Obligations.EcbAndCbcBuffersInvert
  refine fun d v => ⟨fun hlength w => ?refused, fun hlength => ?accepted⟩
  case refused =>
    have hnone := bufferBlocks_eq_none hlength
    exact ⟨fun dec => by rw [ecbBuffer, hnone]; rfl, by rw [cbcEncryptBuffer, hnone]; rfl,
      by rw [cbcDecryptBuffer, hnone]; rfl⟩
  case accepted =>
    obtain ⟨bs, rfl⟩ := exists_blocksBytes_eq hlength
    refine ⟨fun w => ⟨fun dec => ⟨_, ecbBuffer_blocksBytes dec bs w, by simp, fun j hj => ?ecb⟩, ?encrypt, ?decrypt⟩,
      fun k => ⟨⟨_, ecbBuffer_blocksBytes false bs _, ?ecbInverse⟩, _, _, cbcEncryptBuffer_blocksBytes bs v _,
        ?cbcInverse⟩⟩
    case ecb =>
      have hj : j < bs.length := by simpa using hj
      rw [bufferBlock_blocksBytes hj, bufferBlock_blocksBytes (by simpa using hj), List.getElem_map]
    case encrypt => exact cbcEncryptBuffer_blocksBytes bs v w ▸ exists_ivs_blocksBytes _ bs v
    case decrypt => exact cbcDecryptBuffer_blocksBytes bs v w ▸ exists_ivs_blocksBytes _ bs v
    case ecbInverse => simp [ecbBuffer_blocksBytes, Function.comp_def]
    case cbcInverse =>
      rw [cbcDecryptBuffer_blocksBytes, threadBlocks_cbcDecryptBlock]

/-- Settles O52: the loop adds the keystream byte of each index. -/
theorem ctrBufferKeystream : Obligations.CtrBufferKeystream := by
  unfold Obligations.CtrBufferKeystream
  intro d q w
  rw [ctrBuffer_eq]
  refine ⟨List.length_mapIdx, fun i hi => ?_, rfl⟩
  rw [List.getD_eq_getElem _ _ (by rwa [List.length_mapIdx]), List.getElem_mapIdx, List.getD_eq_getElem _ _ hi,
    keystreamByte]

/-- Settles O47: each driver's definition is its rule. -/
theorem singleBlockDrivers : Obligations.SingleBlockDrivers := by
  unfold Obligations.SingleBlockDrivers
  exact fun _ _ _ => ⟨rfl, rfl, rfl, rfl, rfl⟩

/-- Settles O48, by the format and then the mode. -/
theorem engineSelectsTheDriver : Obligations.EngineSelectsTheDriver := by
  unfold Obligations.EngineSelectsTheDriver
  intro m f k v b
  refine ⟨?ecbEncrypt, ?ecbDecrypt, ?cbcEncrypt, ?cbcDecrypt, engineRun_ctr m k v b⟩
  case ecbEncrypt | cbcEncrypt => rintro rfl rfl; rfl
  case ecbDecrypt =>
    rintro rfl hm
    rw [engineRun_ecb, decrypts_of_ne_zero hm]
    rfl
  case cbcDecrypt =>
    rintro rfl hm
    rw [engineRun_cbc, decrypts_of_ne_zero hm]
    rfl

end Sys2Proof.Proofs
end

section
/-! PROOFS. The operation of the device (44_device_operation.md R190 to R196): what a transaction can do to the device, a
trigger's operation among it, and that an operation writes none of the registers it reads. -/

namespace Sys2Proof.Machine

open Sys2Proof.Safety

/-! ### What a transaction can do to the device -/

/-- What the transaction of `i` can make of a device: nothing, one triggered operation, one stored word, or the words and
the side record of one char payload (44_device_operation.md R194; 20_memory.md R68; 46_char_access.md R262 to R264). -/
inductive DeviceEffect (i : Instr) (d : Device) : Device → Prop where
  | kept : DeviceEffect i d d
  | triggered (v : Word) (hv : v ≠ 0) (hi : i = .wrStart v) : DeviceEffect i d (operated d v)
  | stored (r : Reg) (v : Word) (hr : IsStored r) : DeviceEffect i d (writeReg d r v)
  | loadedKey (p : List Byte) : DeviceEffect i d (loadKey d p)
  | loadedIv (p : List Byte) : DeviceEffect i d (loadIv d p)
  | loadedIn (p : List Byte) : DeviceEffect i d (loadIn d p)

/-- A zero write to `start` leaves the device as it was (45_word_access.md R217). -/
theorem exec_wrStart_zero (s : State) : exec (.wrStart 0) s = .next (answer .nothing s) := rfl

theorem storeWord_deviceEffect (i : Instr) {r : Reg} (hr : IsStored r) (v : Word) (s : State) :
    ∃ t, storeWord r v s = .next t ∧ DeviceEffect i s.dev t.dev :=
  ⟨_, rfl, .stored r v hr⟩

/-- Every instruction answers a next state, its device changed by one of these effects. -/
theorem exec_deviceEffect (i : Instr) (s : State) : ∃ t, exec i s = .next t ∧ DeviceEffect i s.dev t.dev := by
  cases i with
  | wrStart v =>
    by_cases hv : v = 0
    · subst hv
      exact ⟨_, exec_wrStart_zero s, .kept⟩
    · exact ⟨_, exec_wrStart_of_ne_zero hv s, .triggered v hv rfl⟩
  | wrMode v | wrFormat v | wrValid v | wrKey _ v | wrIv _ v | wrIn _ v =>
    refine storeWord_deviceEffect _ ?_ v s
    exact ⟨nofun, nofun⟩
  | wrcKey p => exact ⟨_, rfl, by rw [raiseIfShort_dev]; exact .loadedKey p⟩
  | wrcIv p => exact ⟨_, rfl, by rw [raiseIfShort_dev]; exact .loadedIv p⟩
  | wrcIn p => exact ⟨_, rfl, by rw [raiseIfShort_dev]; exact .loadedIn p⟩
  | rdcInvalid off | wrcInvalid off _ => exact ⟨_, rfl, by rw [raiseIfNoRegister_dev]; exact .kept⟩
  | _ => exact ⟨_, rfl, .kept⟩

/-- A word stored by a plain write is none of those an operation writes (44_device_operation.md R192, R194). -/
theorem writeReg_keeps_out_start_fsm (d : Device) {r : Reg} (hr : IsStored r) (v : Word) :
    (writeReg d r v).out = d.out ∧ (writeReg d r v).start = d.start ∧ (writeReg d r v).fsm = d.fsm := by
  obtain ⟨hstart, hro⟩ := hr
  cases r with
  | start => exact absurd rfl hstart
  | out _ => exact absurd rfl hro
  | _ => exact ⟨rfl, rfl, rfl⟩

/-- Every effect but a triggered operation keeps what an operation writes. -/
theorem DeviceEffect.keeps_out_start_fsm {i : Instr} {d e : Device} (h : DeviceEffect i d e)
    (hi : ∀ v, i = .wrStart v → v = 0) : e.out = d.out ∧ e.start = d.start ∧ e.fsm = d.fsm := by
  cases h with
  | triggered v hv hstart => exact absurd (hi v hstart) hv
  | stored r v hr => exact writeReg_keeps_out_start_fsm d hr v
  | kept | loadedKey _ | loadedIv _ | loadedIn _ => exact ⟨rfl, rfl, rfl⟩

/-! ### The operation and the registers it reads -/

/-- The outputs depend on the selectors, the key, the IV and the input alone (44_device_operation.md R190, R191). -/
theorem out_operated_congr {d e : Device} (hmode : d.mode = e.mode) (hformat : d.format = e.format) (hkey : d.key = e.key)
    (hiv : d.iv = e.iv) (hinp : d.inp = e.inp) (v w : Word) : (operated d v).out = (operated e w).out := by
  simp only [operated, hmode, hformat, hkey, hiv, hinp]

/-- No register that an operation reads is one that it writes, so a second operation on its result stores the same output
(44_device_operation.md R193). -/
theorem operated_operated (d : Device) (v w : Word) : operated (operated d v) w = { operated d v with start := w } := by
  have hout : (operated (operated d v) w).out = (operated d v).out := out_operated_congr rfl rfl rfl rfl rfl w v
  calc operated (operated d v) w
      = { operated d v with start := w, out := (operated (operated d v) w).out } := rfl
    _ = { operated d v with start := w } := by rw [hout]

end Sys2Proof.Machine

namespace Sys2Proof.Proofs
open Sys2Proof.Machine Sys2Proof.Safety

/-- Settles O26: of the effects a transaction can have on the device, an operation alone changes what it writes, and only a
nonzero write to `start` has it. -/
theorem onlyNonzeroStartWritesOperate : Obligations.OnlyNonzeroStartWritesOperate := by
  unfold Obligations.OnlyNonzeroStartWritesOperate
  refine ⟨fun s v hv => ⟨_, exec_wrStart_of_ne_zero hv s, rfl⟩, fun s => ⟨_, exec_wrStart_zero s, rfl⟩,
    fun i s t hexec hi => ?_⟩
  obtain ⟨u, hu, heffect⟩ := exec_deviceEffect i s
  obtain rfl : u = t := by rw [hu] at hexec; injection hexec
  exact heffect.keeps_out_start_fsm hi

/-- Settles O27: the outputs are a function of the registers read, none of which the operation writes. -/
theorem operationReadsOnlyItsLatchedRegisters : Obligations.OperationReadsOnlyItsLatchedRegisters := by
  unfold Obligations.OperationReadsOnlyItsLatchedRegisters
  intro s s' v v' hv hv' hmode hformat hkey hiv hinp
  exact ⟨_, _, _, exec_wrStart_of_ne_zero hv s, exec_wrStart_of_ne_zero hv' s',
    out_operated_congr hmode hformat hkey hiv hinp v v', exec_wrStart_of_ne_zero hv' _, operated_operated s.dev v v'⟩

end Sys2Proof.Proofs
end

section
/-! PROOFS. The word transactions (45_word_access.md R210 to R231): the descriptor of each operation by its register's
offset, and what a stored word leaves in the registers and in the engine's bytes. -/

namespace Sys2Proof

open Sys2Proof.Safety

/-! ### The descriptors of word transactions -/

theorem toNat_mkDescriptor_word (dir : Bool) (off : Offset) :
    (mkDescriptor dir false off).toNat = 2 ^ 33 * dir.toNat + off.toNat := by
  have hoff : (off.setWidth 34).toNat = off.toNat := BitVec.toNat_setWidth_of_le (by decide)
  have hor := Nat.two_pow_add_eq_or_of_lt (show off.toNat < 2 ^ 33 by omega) dir.toNat
  rw [hor, mkDescriptor, BitVec.toNat_or, BitVec.toNat_or, hoff]
  cases dir <;> rfl

/-- The registers of an array stand eight bytes apart, and so do their descriptors (20_memory.md R62; 30_encoding.md R92). -/
theorem mkDescriptor_stride (dir : Bool) (base : Offset) {n : Nat} (i : Fin n) (h : base.toNat + 8 * n ≤ 2 ^ 32) :
    mkDescriptor dir false base + 8 * BitVec.ofNat 34 i.val =
      mkDescriptor dir false (base + 8 * BitVec.ofNat 32 i.val) := by
  have hdir : dir.toNat ≤ 1 := Bool.toNat_le dir
  apply BitVec.eq_of_toNat_eq
  simp only [BitVec.toNat_add, BitVec.toNat_mul, BitVec.toNat_ofNat, toNat_mkDescriptor_word, BitVec.ofNat_eq_ofNat]
  omega

section

variable {m : In3Offset} {t : Descriptor} {v : Word} {p : List Byte} {off : Offset} {i : Instr}

/-- A word read's descriptor decodes to the operation that is encoded at its offset, whatever operands stand beside it. -/
theorem decodes_wordRead (hwf : i.wf m = true) (hi : encode m i = .memRead off 4) (ht : t = mkDescriptor false false off) :
    Decodes m t v p i := by
  have haccess : accessOfDescriptor t v p = encode m i := by simp [ht, hi, accessOfDescriptor]
  rw [Decodes, haccess, decode_encode hwf]

/-- A word write's descriptor decodes, with the value beside it, to the operation that is encoded at its offset. -/
theorem decodes_wordWrite (hwf : i.wf m = true) (hi : encode m i = .memWrite off 4 v)
    (ht : t = mkDescriptor true false off) : Decodes m t v p i := by
  have haccess : accessOfDescriptor t v p = encode m i := by simp [ht, hi, accessOfDescriptor]
  rw [Decodes, haccess, decode_encode hwf]

end

/-- The sentinel is "a fixed sentinel value (not zero)" (00_scope.md R10). -/
theorem Config.sentinel_ne_zero : Config.sentinel ≠ 0 := by
  intro h
  have hmod : (Config.sentinelLessOne.val + 1) % 2 ^ 32 = 0 := congrArg BitVec.toNat h
  have hlt := Config.sentinelLessOne.isLt
  omega

end Sys2Proof

namespace Sys2Proof.Machine

/-! ### A stored word among the registers and the engine's bytes -/

/-- Every register after a word is stored in one (20_memory.md R68). -/
theorem readReg_writeReg (d : Device) (r q : Reg) (v : Word) :
    readReg (writeReg d r v) q = if q = r then v else readReg d q := by
  split
  case isTrue h => rw [h, readReg_writeReg_same]
  case isFalse h => exact readReg_writeReg_other d r q v h

theorem get_key_writeReg (d : Device) (i j : Fin 8) (v : Word) :
    (writeReg d (.key i) v).key.get j = if j = i then v else d.key.get j := by
  simpa only [readReg, Reg.key.injEq] using readReg_writeReg d (.key i) (.key j) v

theorem get_iv_writeReg (d : Device) (i j : Fin 4) (v : Word) :
    (writeReg d (.iv i) v).iv.get j = if j = i then v else d.iv.get j := by
  simpa only [readReg, Reg.iv.injEq] using readReg_writeReg d (.iv i) (.iv j) v

theorem get_inp_writeReg (d : Device) (i j : Fin 4) (v : Word) :
    (writeReg d (.inp i) v).inp.get j = if j = i then v else d.inp.get j := by
  simpa only [readReg, Reg.inp.injEq] using readReg_writeReg d (.inp i) (.inp j) v

theorem getD_quadBytes_quadOfWord (w : Word) {j : Nat} (hj : j < 4) : (quadBytes (quadOfWord w)).getD j 0 = byteOf w j := by
  rw [← byteOf_wordOfQuad _ hj, wordOfQuad_quadOfWord]

theorem columnAt_blockOfWords (ws : Vector Word 4) (i : Fin 4) : columnAt (blockOfWords ws) i = quadOfWord (ws.get i) := by
  fin_cases i <;> rfl

/-- Bytes 4i..4i+3 of a block are those of its word `i`, least significant first (20_memory.md R66). -/
theorem getD_blockBytes_blockOfWords (ws : Vector Word 4) (i : Fin 4) {j : Nat} (hj : j < 4) :
    (blockBytes (blockOfWords ws)).getD (4 * i.val + j) 0 = byteOf (ws.get i) j := by
  rw [getD_blockBytes _ i hj, columnAt_blockOfWords, getD_quadBytes_quadOfWord _ hj]

theorem getD_keyQuads_keyOfWords (ws : Vector Word 8) (i : Fin 8) (d : ByteQuad) :
    (keyQuads (keyOfWords ws)).getD i.val d = quadOfWord (ws.get i) := by
  fin_cases i <;> rfl

/-- Bytes 4i..4i+3 of a key are those of its word `i`, least significant first (20_memory.md R66). -/
theorem getD_keyBytes_keyOfWords (ws : Vector Word 8) (i : Fin 8) {j : Nat} (hj : j < 4) :
    (keyBytes (keyOfWords ws)).getD (4 * i.val + j) 0 = byteOf (ws.get i) j := by
  rw [keyBytes_eq_flatMap, getD_flatMap_quadBytes _ _ hj, getD_keyQuads_keyOfWords, getD_quadBytes_quadOfWord _ hj]

end Sys2Proof.Machine

namespace Sys2Proof.Proofs
open Sys2Proof.Machine Sys2Proof.Safety

/-- Settles O13: a store is the register write alone, and the engine's bytes are those of the words. -/
theorem keyAndIvWritesStoreTheirWord : Obligations.KeyAndIvWritesStoreTheirWord := by
  unfold Obligations.KeyAndIvWritesStoreTheirWord
  refine fun m v p s => ⟨fun i => ⟨decodes_wordWrite rfl rfl (mkDescriptor_stride true 0x028 i (by decide)), ?key⟩,
    fun i => ⟨decodes_wordWrite rfl rfl (mkDescriptor_stride true 0x068 i (by decide)), ?iv⟩⟩
  case key =>
    refine ⟨_, rfl, rfl, fun j => get_key_writeReg s.dev i j v, fun j hj => ?_⟩
    exact (getD_keyBytes_keyOfWords _ i hj).trans (by rw [answer_dev, withDevice_dev, get_key_writeReg, if_pos rfl])
  case iv =>
    refine ⟨_, rfl, rfl, fun j => get_iv_writeReg s.dev i j v, fun j hj => ?_⟩
    exact (getD_blockBytes_blockOfWords _ i hj).trans (by rw [answer_dev, withDevice_dev, get_iv_writeReg, if_pos rfl])

/-- Settles O9: each register is read from the device, and the invariant says what `id` holds. -/
theorem controlReadsReturnTheStoredWord : Obligations.ControlReadsReturnTheStoredWord := by
  unfold Obligations.ControlReadsReturnTheStoredWord
  refine fun m v p s => ⟨⟨decodes_wordRead (off := 0x000) rfl rfl rfl, readStored_eq .id rfl, fun ⟨_, hid⟩ => ?id⟩,
    ⟨decodes_wordRead (off := 0x008) rfl rfl rfl, readStored_eq .mode rfl⟩,
    ⟨decodes_wordRead (off := 0x010) rfl rfl rfl, readStored_eq .format rfl⟩,
    ⟨decodes_wordRead (off := 0x018) rfl rfl rfl, readStored_eq .start rfl⟩,
    ⟨decodes_wordRead (off := 0x020) rfl rfl rfl, readStored_eq .valid rfl⟩⟩
  case id =>
    rw [← hid]
    exact readStored_eq .id rfl

/-- Settles O10: the write to `id` is ignored, each of the others is one store. -/
theorem controlWritesStoreVerbatim : Obligations.ControlWritesStoreVerbatim := by
  unfold Obligations.ControlWritesStoreVerbatim
  exact fun m v p s => ⟨⟨decodes_wordWrite (off := 0x000) rfl rfl rfl, rfl⟩, ⟨decodes_wordWrite (off := 0x008) rfl rfl rfl, rfl⟩,
    ⟨decodes_wordWrite (off := 0x010) rfl rfl rfl, rfl⟩, ⟨decodes_wordWrite (off := 0x020) rfl rfl rfl, rfl⟩⟩

/-- Settles O11, by whether the value triggers. -/
theorem startWriteRunsOneOperation : Obligations.StartWriteRunsOneOperation := by
  unfold Obligations.StartWriteRunsOneOperation
  exact fun m v p s => ⟨decodes_wordWrite (off := 0x018) rfl rfl rfl, fun hv => exec_wrStart_of_ne_zero hv s,
    fun hv => hv ▸ exec_wrStart_zero s⟩

/-- Settles O12: the read of a write-only word is the sentinel's. -/
theorem keyAndIvReadsReturnSentinel : Obligations.KeyAndIvReadsReturnSentinel := by
  unfold Obligations.KeyAndIvReadsReturnSentinel
  exact ⟨Config.sentinel_ne_zero, fun m v p s =>
    ⟨fun i => ⟨decodes_wordRead rfl rfl (mkDescriptor_stride false 0x028 i (by decide)), rfl⟩,
      fun i => ⟨decodes_wordRead rfl rfl (mkDescriptor_stride false 0x068 i (by decide)), rfl⟩⟩⟩

/-- Settles O14: the offset is the encoder's for `in_i`, and the stored word is word `i` of the input block. -/
theorem inputWordsAreReadAndWritten : Obligations.InputWordsAreReadAndWritten := by
  unfold Obligations.InputWordsAreReadAndWritten
  intro m v p s i
  refine ⟨decodes_wordRead rfl rfl rfl, readStored_eq (.inp i) rfl, decodes_wordWrite rfl rfl rfl,
    _, rfl, rfl, fun j => get_inp_writeReg s.dev i j v, fun j hj => ?_⟩
  exact (getD_blockBytes_blockOfWords _ i hj).trans (by rw [answer_dev, withDevice_dev, get_inp_writeReg, if_pos rfl])

/-- Settles O15: the output word is read from the device, and a write to it is ignored. -/
theorem outputWordsAreReadOnly : Obligations.OutputWordsAreReadOnly := by
  unfold Obligations.OutputWordsAreReadOnly
  intro m v p s i
  exact ⟨decodes_wordRead rfl rfl (mkDescriptor_stride false 0x108 i (by decide)), readStored_eq (.out i) rfl,
    decodes_wordWrite rfl rfl (mkDescriptor_stride true 0x108 i (by decide)), rfl⟩

/-- Settles O16: the word view of a char register reads as the sentinel and ignores writes. -/
theorem wordAccessAtCharOffsetsHasNoEffect : Obligations.WordAccessAtCharOffsetsHasNoEffect := by
  unfold Obligations.WordAccessAtCharOffsetsHasNoEffect
  exact fun m v p s c => ⟨decodes_wordRead rfl rfl rfl, rfl, decodes_wordWrite rfl rfl rfl, rfl⟩

/-- Settles O17: an offset of no register makes the invalid-offset operations well formed; the map has no row at those named. -/
theorem wordAccessAtInvalidOffsets : Obligations.WordAccessAtInvalidOffsets := by
  unfold Obligations.WordAccessAtInvalidOffsets
  refine ⟨Config.sentinel_ne_zero, fun m v p s off hoff => ?invalid, fun m => ?noRow, by decide⟩
  case invalid =>
    have hwf : noRegister m off = true := noRegister_iff.2 hoff
    exact ⟨decodes_wordRead hwf rfl rfl, rfl, decodes_wordWrite hwf rfl rfl, rfl⟩
  case noRow => cases m <;> decide

end Sys2Proof.Proofs
end

section
/-! PROOFS. The char transactions (46_char_access.md R260 to R272): the words of a packed payload, the text of a char read, what
each char write and char read answers, and the char path against the word path. -/

namespace Sys2Proof

open Sys2Proof.Safety

/-! ### The descriptors of char transactions -/

section

variable {m : In3Offset} {t : Descriptor} {v : Word} {p : List Byte} {off : Offset} {i : Instr}

/-- A char read's descriptor decodes to the operation that is encoded at its offset, whatever operands stand beside it. -/
theorem decodes_charRead (hwf : i.wf m = true) (hi : encode m i = .charRead off) (ht : t = mkDescriptor false true off) :
    Decodes m t v p i := by
  have haccess : accessOfDescriptor t v p = encode m i := by simp [ht, hi, accessOfDescriptor]
  rw [Decodes, haccess, decode_encode hwf]

/-- A char write's descriptor decodes, with the payload beside it, to the operation that is encoded at its offset. -/
theorem decodes_charWrite (hwf : i.wf m = true) (hi : encode m i = .charWrite off p) (ht : t = mkDescriptor true true off) :
    Decodes m t v p i := by
  have haccess : accessOfDescriptor t v p = encode m i := by simp [ht, hi, accessOfDescriptor]
  rw [Decodes, haccess, decode_encode hwf]

end

end Sys2Proof

namespace Sys2Proof.Machine

open Sys2Proof.Safety

/-! ### The words of a packed payload -/

theorem length_fitPayload (p : List Byte) (n : Nat) : (fitPayload p n).length = 4 * n := by
  rw [fitPayload, List.length_append, List.length_take, List.length_replicate]
  omega

/-- A byte below `4n` is the payload's, or the zero that fills up a short one (R260). -/
theorem payloadByte_fitPayload (p : List Byte) {n k : Nat} (hk : k < 4 * n) :
    payloadByte (fitPayload p n) k = payloadByte p k := by
  unfold payloadByte fitPayload
  rcases Nat.lt_or_ge k p.length with hin | hout
  · have htake : k < (p.take (4 * n)).length := by rw [List.length_take]; omega
    rw [List.getD_append _ _ _ _ htake, List.getD_eq_getElem _ _ htake, List.getD_eq_getElem _ _ hin, List.getElem_take]
  · have htake : (p.take (4 * n)).length ≤ k := by rw [List.length_take]; omega
    rw [List.getD_append_right _ _ _ _ htake, List.getD_eq_default _ _ hout, List.getD_eq_getElem?_getD,
      List.getElem?_getD_replicate_default_eq]

theorem payloadWord_fitPayload (p : List Byte) {n i : Nat} (hi : i < n) :
    payloadWord (fitPayload p n) i = payloadWord p i := by
  simp (disch := omega) only [payloadWord, payloadByte_fitPayload]

/-- `BytesToWords` of a byte string, as far as whole words go (00_scope.md R17). -/
theorem bytesToWords_eq_map_payloadWord (b : List Byte) :
    bytesToWords b = (List.range (b.length / 4)).map (payloadWord b) := by
  induction b using bytesToWords.induct with
  | case1 b0 b1 b2 b3 rest ih =>
    have hlength : (b0 :: b1 :: b2 :: b3 :: rest).length / 4 = rest.length / 4 + 1 := by
      simp only [List.length_cons]
      omega
    rw [bytesToWords, ih, hlength, List.range_succ_eq_map, List.map_cons, List.map_map]
    rfl
  | case2 => rfl
  | case3 | case4 | case5 => simp [bytesToWords]

theorem packPayload_eq_map_payloadWord (p : List Byte) (n : Nat) :
    packPayload p n = (List.range n).map (payloadWord p) := by
  rw [packPayload, bytesToWords_eq_map_payloadWord, length_fitPayload, Nat.mul_div_cancel_left n (by decide)]
  exact List.map_congr_left fun i hi => payloadWord_fitPayload p (List.mem_range.1 hi)

theorem getD_packPayload (p : List Byte) {n i : Nat} (hi : i < n) : (packPayload p n).getD i 0 = payloadWord p i := by
  rw [packPayload_eq_map_payloadWord]
  simp [hi]

theorem get_packKeyWords (p : List Byte) (i : Fin 8) : (packKeyWords p).get i = payloadWord p i.val := by
  have hget : (packKeyWords p).get i = (packPayload p 8).getD i.val 0 := by fin_cases i <;> rfl
  rw [hget, getD_packPayload p i.isLt]

theorem get_packBlockWords (p : List Byte) (i : Fin 4) : (packBlockWords p).get i = payloadWord p i.val := by
  have hget : (packBlockWords p).get i = (packPayload p 4).getD i.val 0 := by fin_cases i <;> rfl
  rw [hget, getD_packPayload p i.isLt]

/-! ### The decimal digits of a byte -/

theorem toNat_digitByte {d : Nat} (hd : d < 10) : (digitByte d).toNat = 0x30 + d := by
  rw [digitByte, BitVec.toNat_ofNat]
  omega

/-- A byte has one, two or three digits, the first of several not zero (R261). -/
theorem decimalBytes_cases (b : Byte) :
    (∃ d < 10, b.toNat = d ∧ decimalBytes b = [digitByte d]) ∨
    (∃ d < 10, ∃ e < 10, d ≠ 0 ∧ b.toNat = 10 * d + e ∧ decimalBytes b = [digitByte d, digitByte e]) ∨
    ∃ d < 10, ∃ e < 10, ∃ f < 10, d ≠ 0 ∧ b.toNat = 100 * d + 10 * e + f ∧
      decimalBytes b = [digitByte d, digitByte e, digitByte f] := by
  have hb := b.isLt
  rcases Nat.lt_or_ge b.toNat 10 with h1 | h1
  · exact .inl ⟨b.toNat, h1, rfl, by rw [decimalBytes, if_pos h1]⟩
  have hne1 : ¬ b.toNat < 10 := by omega
  rcases Nat.lt_or_ge b.toNat 100 with h2 | h2
  · exact .inr (.inl ⟨b.toNat / 10, by omega, b.toNat % 10, by omega, by omega, by omega,
      by rw [decimalBytes, if_neg hne1, if_pos h2]⟩)
  have hne2 : ¬ b.toNat < 100 := by omega
  exact .inr (.inr ⟨b.toNat / 100, by omega, b.toNat / 10 % 10, by omega, b.toNat % 10, by omega, by omega, by omega,
    by rw [decimalBytes, if_neg hne1, if_neg hne2]⟩)

theorem length_decimalBytes_bounds (b : Byte) : 1 ≤ (decimalBytes b).length ∧ (decimalBytes b).length ≤ 3 := by
  rcases decimalBytes_cases b with ⟨d, -, -, h⟩ | ⟨d, -, e, -, -, -, h⟩ | ⟨d, -, e, -, f, -, -, -, h⟩ <;> simp [h]

theorem decimalValue_decimalBytes (b : Byte) : decimalValue (decimalBytes b) = b.toNat := by
  rcases decimalBytes_cases b with ⟨d, hd, hb, h⟩ | ⟨d, hd, e, he, -, hb, h⟩ | ⟨d, hd, e, he, f, hf, -, hb, h⟩
  · simp [h, hb, decimalValue, toNat_digitByte hd]
  · simp [h, hb, decimalValue, toNat_digitByte hd, toNat_digitByte he]
  · simp [h, hb, decimalValue, toNat_digitByte hd, toNat_digitByte he, toNat_digitByte hf]
    omega

/-- A decimal digit is an ASCII code from 0x30 to 0x39 (R261). -/
def IsDigit (x : Byte) : Prop := 0x30 ≤ x.toNat ∧ x.toNat ≤ 0x39

theorem isDigit_digitByte {d : Nat} (hd : d < 10) : IsDigit (digitByte d) := by
  rw [IsDigit, toNat_digitByte hd]
  omega

theorem isDigit_of_mem_decimalBytes (b : Byte) : ∀ x ∈ decimalBytes b, IsDigit x := by
  rcases decimalBytes_cases b with ⟨d, hd, -, h⟩ | ⟨d, hd, e, he, -, -, h⟩ | ⟨d, hd, e, he, f, hf, -, -, h⟩
  · rw [h, List.forall_mem_singleton]
    exact isDigit_digitByte hd
  · rw [h, List.forall_mem_cons, List.forall_mem_singleton]
    exact ⟨isDigit_digitByte hd, isDigit_digitByte he⟩
  · rw [h, List.forall_mem_cons, List.forall_mem_cons, List.forall_mem_singleton]
    exact ⟨isDigit_digitByte hd, isDigit_digitByte he, isDigit_digitByte hf⟩

theorem digitByte_eq_zero_iff {d : Nat} (hd : d < 10) : digitByte d = 0x30 ↔ d = 0 := by
  rw [← BitVec.toNat_inj, toNat_digitByte hd]
  exact Nat.add_eq_left

/-- Zero is the only number that begins with the digit zero (R261). -/
theorem decimalBytes_of_head_zero {b : Byte} (hz : (decimalBytes b).head? = some 0x30) : decimalBytes b = [0x30] := by
  rcases decimalBytes_cases b with ⟨d, hd, -, h⟩ | ⟨d, hd, e, -, hne, -, h⟩ | ⟨d, hd, e, -, f, -, hne, -, h⟩
  · rw [h, List.head?_cons, Option.some_inj] at hz
    rw [h, hz]
  all_goals
    rw [h, List.head?_cons, Option.some_inj, digitByte_eq_zero_iff hd] at hz
    exact absurd hz hne

/-! ### The rendered text -/

theorem spaceSeparated_eq_intercalate (l : List Byte) :
    spaceSeparated l = List.intercalate [0x20] (l.map decimalBytes) := by
  induction l using spaceSeparated.induct with
  | case1 => rfl
  | case2 b => simp [spaceSeparated]
  | case3 b c rest ih => simp [spaceSeparated, ih, List.intercalate_cons_cons]

/-- Each number and the space or line feed after it take two to four bytes. -/
theorem length_spaceSeparated_bounds {l : List Byte} (hl : l ≠ []) :
    2 * l.length ≤ (spaceSeparated l).length + 1 ∧ (spaceSeparated l).length + 1 ≤ 4 * l.length := by
  induction l using spaceSeparated.induct with
  | case1 => exact absurd rfl hl
  | case2 b =>
    have hb := length_decimalBytes_bounds b
    simp only [spaceSeparated, List.length_singleton]
    omega
  | case3 b c rest ih =>
    have hb := length_decimalBytes_bounds b
    have hrest := ih (List.cons_ne_nil c rest)
    simp only [spaceSeparated, List.length_append, List.length_cons] at hrest ⊢
    omega

/-! ### What a char access answers -/

section

variable (p : List Byte) (off : Offset) (s : State)

/-- A char write that packs its payload: the loaded device, and the event of a short payload (R260, R302). -/
theorem raiseIfShort_answer_withDevice (n : Nat) (d : Device) :
    raiseIfShort p n (answer .nothing (withDevice s d)) = { s with
      dev := d
      host := answered s .nothing (if p.length < 4 * n then some (.malformedCharPayload p.length) else none) } :=
  raiseIfShort_eq p n _ rfl

theorem exec_wrcKey : exec (.wrcKey p) s = .next { s with
    dev := loadKey s.dev p
    host := answered s .nothing (if p.length < 32 then some (.malformedCharPayload p.length) else none) } :=
  congrArg _ (raiseIfShort_answer_withDevice p s 8 (loadKey s.dev p))

theorem exec_wrcIv : exec (.wrcIv p) s = .next { s with
    dev := loadIv s.dev p
    host := answered s .nothing (if p.length < 16 then some (.malformedCharPayload p.length) else none) } :=
  congrArg _ (raiseIfShort_answer_withDevice p s 4 (loadIv s.dev p))

theorem exec_wrcIn : exec (.wrcIn p) s = .next { s with
    dev := loadIn s.dev p
    host := answered s .nothing (if p.length < 16 then some (.malformedCharPayload p.length) else none) } :=
  congrArg _ (raiseIfShort_answer_withDevice p s 4 (loadIn s.dev p))

/-- A char access at an offset of no char register: nothing but the answer, and the event of an offset of no register at all
(R270, R271). -/
theorem raiseIfNoRegister_answer (r : Result) :
    raiseIfNoRegister off (answer r s) = { s with
      host := answered s r (if regAt s.in3 off = none then some (.invalidRegisterOffset off) else none) } := by
  simp only [raiseIfNoRegister_eq off (answer r s) rfl, answer_in3, noRegister_iff]
  rfl

end

/-! ### The char path and the word path -/

/-- A load is the word writes of its words, and the payload in the side record (R262 to R264). -/
theorem loadKey_eq_writeRegs (d : Device) (p : List Byte) :
    loadKey d p = { writeRegs (arrayWrites .key (packKeyWords p)) d with recKey := p } := by
  rw [writeRegs_key]
  rfl

theorem loadIv_eq_writeRegs (d : Device) (p : List Byte) :
    loadIv d p = { writeRegs (arrayWrites .iv (packBlockWords p)) d with recIv := p } := by
  rw [writeRegs_iv]
  rfl

theorem loadIn_eq_writeRegs (d : Device) (p : List Byte) :
    loadIn d p = { writeRegs (arrayWrites .inp (packBlockWords p)) d with recIn := p } := by
  rw [writeRegs_inp]
  rfl

section

variable {s : State} (hidle : s.dev.fsm = .idle) (hp : s.host.pending = [])

include hidle hp

/-- One operation issued to a device that waits for none is executed at once, on the device as it stands (20_memory.md R71). -/
theorem runs_one_issue_encode {i : Instr} (hwf : i.wf s.in3 = true) :
    ∃ u : State, u.dev = s.dev ∧ runs 1 (issue [encode s.in3 i] s) = exec i u := by
  have hpending : (issue [encode s.in3 i] s).host.pending = [encode s.in3 i] := by rw [issue_pending, hp, List.nil_append]
  refine ⟨takeTransaction [] (issue [encode s.in3 i] s), rfl, ?_⟩
  obtain ⟨t, ht, -⟩ := exec_next i (takeTransaction [] (issue [encode s.in3 i] s))
  rw [ht]
  exact runs_succ_of_exec (n := 0) (s := issue [encode s.in3 i] s) hidle hpending (decode_encode hwf) ht

/-- The words of an array of registers written one by one, from index 0 on. -/
theorem runs_issue_arrayWrites {n : Nat} {r : Fin n → Reg} (hr : ∀ i, IsStored (r i)) {ws : Vector Word n}
    {f : Fin n → Word} (hws : ∀ i, ws.get i = f i) :
    ∃ u, runs n (issue ((List.finRange n).map fun i => .memWrite (regOffset s.in3 (r i)) 4 (f i)) s) = .next u ∧
      u.dev = writeRegs (arrayWrites r ws) s.dev := by
  obtain rfl : ws.get = f := funext hws
  have hwrites : wordWrites s.in3 (arrayWrites r ws) =
      (List.finRange n).map fun i => .memWrite (regOffset s.in3 (r i)) 4 (ws.get i) := List.map_map
  have hlength : (arrayWrites r ws).length = n := by rw [arrayWrites, List.length_map, List.length_finRange]
  obtain ⟨u, hruns, hdev, -⟩ := runs_add_of_wordWrites (forall_mem_arrayWrites hr ws) 0 (rest := [])
    (s := issue (wordWrites s.in3 (arrayWrites r ws)) s) hidle (by rw [issue_pending, hp, List.nil_append, List.append_nil]; rfl)
  rw [Nat.zero_add, hlength, hwrites] at hruns
  exact ⟨u, hruns, hdev⟩

/-- An operation that does what the word writes of an array do, and marks the device besides, leaves the device of those
writes with that mark (R272). -/
theorem charPath_eq_wordPath {i : Instr} {mark : Device → Device} {n : Nat} {r : Fin n → Reg} {ws : Vector Word n}
    {f : Fin n → Word} (hwf : i.wf s.in3 = true)
    (hexec : ∀ c, ∃ t, exec i c = .next t ∧ t.dev = mark (writeRegs (arrayWrites r ws) c.dev))
    (hr : ∀ j, IsStored (r j)) (hws : ∀ j, ws.get j = f j) :
    ∃ t u, runs 1 (issue [encode s.in3 i] s) = .next t ∧
      runs n (issue ((List.finRange n).map fun j => .memWrite (regOffset s.in3 (r j)) 4 (f j)) s) = .next u ∧
      t.dev = mark u.dev ∧ u.dev = writeRegs (arrayWrites r ws) s.dev := by
  obtain ⟨c, hc, hchar⟩ := runs_one_issue_encode hidle hp hwf
  obtain ⟨t, ht, hdev⟩ := hexec c
  obtain ⟨u, hword, hu⟩ := runs_issue_arrayWrites hidle hp hr hws
  exact ⟨t, u, hchar.trans ht, hword, by rw [hdev, hc, hu], hu⟩

end

end Sys2Proof.Machine

namespace Sys2Proof.Proofs
open Sys2Proof.Machine Sys2Proof.Safety

/-- Settles O18: the stores are the model's load, whose words are those of the packed payload. -/
theorem charWritesLoadTheWords : Obligations.CharWritesLoadTheWords := by
  unfold Obligations.CharWritesLoadTheWords
  exact fun m v p s =>
    ⟨⟨decodes_charWrite (off := 0x128) rfl rfl rfl, _, exec_wrcKey p s, rfl, get_packKeyWords p⟩,
      ⟨decodes_charWrite (off := 0x130) rfl rfl rfl, _, exec_wrcIv p s, rfl, get_packBlockWords p⟩,
      ⟨decodes_charWrite (off := 0x138) rfl rfl rfl, _, exec_wrcIn p s, rfl, get_packBlockWords p⟩⟩

/-- Settles O21: the packed payload is the list of its first `n` words. -/
theorem packedPayloadWords : Obligations.PackedPayloadWords := by
  unfold Obligations.PackedPayloadWords
  intro p n
  rw [packPayload_eq_map_payloadWord]
  exact ⟨by rw [List.length_map, List.length_range], fun i hi => by rw [List.getElem?_map, List.getElem?_range hi]; rfl⟩

/-- Settles O22: the sixteen renderings are the parts, and each byte has one to three digits. -/
theorem renderedTextShape : Obligations.RenderedTextShape := by
  unfold Obligations.RenderedTextShape
  refine ⟨fun ws => ?shape, fun b =>
    ⟨decimalValue_decimalBytes b, isDigit_of_mem_decimalBytes b, decimalBytes_of_head_zero⟩⟩
  case shape =>
    have hlength : (render ws).length = (spaceSeparated (blockBytes (blockOfWords ws))).length + 1 := List.length_append
    obtain ⟨hlow, hhigh⟩ := length_spaceSeparated_bounds (l := blockBytes (blockOfWords ws)) (List.cons_ne_nil _ _)
    rw [← hlength, length_blockBytes] at hlow hhigh
    exact ⟨hlow, hhigh, _, by rw [List.length_map, length_blockBytes], by rw [render, spaceSeparated_eq_intercalate], rfl⟩

/-- Settles O36: the words written one by one are those the char write loads, and only the char write stores a side record. -/
theorem charPathEqualsTheWordPath : Obligations.CharPathEqualsTheWordPath := by
  unfold Obligations.CharPathEqualsTheWordPath
  intro s p hidle hp
  refine ⟨?key, ?iv, ?inp⟩
  case key =>
    obtain ⟨t, u, hchar, hword, hdev, hu⟩ := charPath_eq_wordPath hidle hp (r := .key) (mark := ({ · with recKey := p }))
      (i := .wrcKey p) rfl (fun c => ⟨_, exec_wrcKey p c, loadKey_eq_writeRegs c.dev p⟩)
      (fun _ => ⟨nofun, nofun⟩) (get_packKeyWords p)
    exact ⟨t, u, hchar, hword, hdev, by rw [hu, writeRegs_key]⟩
  case iv =>
    obtain ⟨t, u, hchar, hword, hdev, hu⟩ := charPath_eq_wordPath hidle hp (r := .iv) (mark := ({ · with recIv := p }))
      (i := .wrcIv p) rfl (fun c => ⟨_, exec_wrcIv p c, loadIv_eq_writeRegs c.dev p⟩)
      (fun _ => ⟨nofun, nofun⟩) (get_packBlockWords p)
    exact ⟨t, u, hchar, hword, hdev, by rw [hu, writeRegs_iv]⟩
  case inp =>
    obtain ⟨t, u, hchar, hword, hdev, hu⟩ := charPath_eq_wordPath hidle hp (r := .inp) (mark := ({ · with recIn := p }))
      (i := .wrcIn p) rfl (fun c => ⟨_, exec_wrcIn p c, loadIn_eq_writeRegs c.dev p⟩)
      (fun _ => ⟨nofun, nofun⟩) (get_packBlockWords p)
    exact ⟨t, u, hchar, hword, hdev, by rw [hu, writeRegs_inp]⟩

/-- Settles O19: each read answers what its rule says of the words, and nothing else changes. -/
theorem charReadsRenderOrAreEmpty : Obligations.CharReadsRenderOrAreEmpty := by
  unfold Obligations.CharReadsRenderOrAreEmpty
  exact fun m v p s => ⟨⟨decodes_charRead (off := 0x128) rfl rfl rfl, rfl⟩,
    ⟨decodes_charRead (off := 0x130) rfl rfl rfl, rfl⟩,
    ⟨decodes_charRead (off := 0x138) rfl rfl rfl, rfl⟩, ⟨decodes_charRead (off := 0x140) rfl rfl rfl, rfl⟩⟩

/-- Settles O20: an offset of no char register makes the invalid-offset operations well formed, and their event is the map's. -/
theorem charAccessWithoutEffect : Obligations.CharAccessWithoutEffect := by
  unfold Obligations.CharAccessWithoutEffect
  refine fun v p s => ⟨fun m => decodes_charWrite (off := 0x140) rfl rfl rfl, rfl, fun off hoff => ?_⟩
  have hwf : noCharRegister s.in3 off = true := (charOffset_or_noCharRegister s.in3 off).resolve_left fun ⟨c, hc⟩ => hoff c hc
  exact ⟨decodes_charRead hwf rfl rfl, congrArg _ (raiseIfNoRegister_answer off s (.text [])),
    decodes_charWrite hwf rfl rfl, congrArg _ (raiseIfNoRegister_answer off s .nothing)⟩

end Sys2Proof.Proofs
end

section
/-! PROOFS. Runs that never stop (60_exceptions.md R300, R303; 10_state.md R44) and the reset state
(70_reset_and_hazards.md R331): what one step does from a legal state, with or without a transaction pending, carried along
every run; and the word each register holds at reset. -/

namespace Sys2Proof.Machine

open Sys2Proof.Safety

/-! ### Legal runs -/

/-- With nothing pending an idle device stands still (20_memory.md R80). -/
theorem step_of_nothingPending {s : State} (h : s.dev.fsm = .idle) (hp : s.host.pending = []) : step s = .next s := by
  simp only [step, h, hp]

/-- One step from any legal state: it answers a legal state, drops the head of the sequence and counts it if there was one. -/
theorem step_keeps_legal {s : State} (h : Legal s) :
    ∃ t, step s = .next t ∧ Legal t ∧ t.host.pending = s.host.pending.tail ∧
      t.host.position = s.host.position + min 1 s.host.pending.length := by
  cases hp : s.host.pending with
  | nil => exact ⟨s, step_of_nothingPending h.1 hp, h, hp, rfl⟩
  | cons a rest =>
    obtain ⟨t, hstep, hlegal, hpending, hposition⟩ := step_of_legal h hp
    refine ⟨t, hstep, hlegal, hpending, ?_⟩
    rw [hposition, List.length_cons, Nat.min_eq_left (Nat.le_add_left 1 _)]

/-- A run of any length from a legal state: as many transactions are applied as it has steps, or all that are pending. -/
theorem runs_keep_legal (n : Nat) {s : State} (h : Legal s) :
    ∃ t, runs n s = .next t ∧ Legal t ∧ t.host.pending = s.host.pending.drop n ∧
      t.host.position = s.host.position + min n s.host.pending.length := by
  induction n generalizing s with
  | zero => exact ⟨s, runs_zero s, h, rfl, by rw [Nat.zero_min, Nat.add_zero]⟩
  | succ n ih =>
    obtain ⟨u, hstep, hlegal, hpending, hposition⟩ := step_keeps_legal h
    obtain ⟨t, hruns, hkept, hdropped, hcount⟩ := ih hlegal
    refine ⟨t, (runs_succ_of_next hstep).trans hruns, hkept, ?_, ?_⟩
    · rw [hdropped, hpending, List.drop_tail]
    · rw [hcount, hposition, hpending, List.length_tail]
      omega

/-! ### The reset state -/

/-- Each of the 24 storage registers holds at reset what `RESET_STORAGE` says of it. -/
theorem readReg_resetWith (c : ResetStorage) {r : Reg} (hr : r ≠ .id) :
    readReg (Device.resetWith c) r = resetWord c r := by
  cases r with
  | id => exact absurd rfl hr
  | mode | format | start | valid => rfl
  | key i => exact Vector.get_ofFn (fun j => resetWord c (.key j)) i
  | iv i => exact Vector.get_ofFn (fun j => resetWord c (.iv j)) i
  | inp i => exact Vector.get_ofFn (fun j => resetWord c (.inp j)) i
  | out i => exact Vector.get_ofFn (fun j => resetWord c (.out j)) i

end Sys2Proof.Machine

namespace Sys2Proof.Proofs
open Sys2Proof.Machine Sys2Proof.Safety

/-- Settles O33: every step from a legal state answers a legal state, so a run of any length does. -/
theorem legalRunsNeverStop : Obligations.LegalRunsNeverStop := by
  unfold Obligations.LegalRunsNeverStop
  exact fun n _ h => runs_keep_legal n h

/-- Settles O30: the storage registers one by one; the other fields and the defaults stand in the definitions. -/
theorem resetStateValues : Obligations.ResetStateValues := by
  unfold Obligations.ResetStateValues
  exact ⟨fun _ c => ⟨rfl, fun _ hr => readReg_resetWith c hr, rfl, rfl, rfl, rfl⟩, fun _ => rfl, fun _ _ => rfl, rfl⟩

end Sys2Proof.Proofs
end
